-- ==== Sys2Proof/Word.lean ====
section
/-! DEFINITION. The word types of LM-MIPS32 (spec/00_scope.md R5, R6, R7): 32-bit words, bytes, the
5-bit register number and the two immediate fields. Only the types and the alignment test. -/

namespace Sys2Proof

/-- A 32-bit register value, byte address or memory word (R5 `XLEN`, `ALEN`, `ILEN`; R7). -/
abbrev Word := BitVec 32

/-- One byte of memory (R28). -/
abbrev Byte := BitVec 8

/-- A register number, 0 to 31: the 5-bit register field of an instruction (R13, R55). -/
abbrev Reg := BitVec 5

/-- The 16-bit immediate field of an I-format instruction (R46). -/
abbrev Imm16 := BitVec 16

/-- The 26-bit word address of a J-format instruction (R47). -/
abbrev Target26 := BitVec 26

/-- `a[1:0] = 00`: a word-aligned byte address (R29, R32). -/
abbrev aligned (a : Word) : Prop := a.toNat % 4 = 0

end Sys2Proof
end

