-- ==== Sys2Proof/Syntax.lean ====
section
/-! DEFINITION. The eighteen machine instructions of spec/00_scope.md R3, one constructor per row of
spec/opcode_table.json, with the operands spec/30_encoding.md R64 gives each. A constructor lists its
operands as R64 writes them: destination first where there is one. -/

namespace Sys2Proof

/-- A machine instruction (R3, R64). Each operand has exactly the width of its field (R45, R46, R47). -/
inductive Instr where
  /-- `add $rd, $rs, $rt` (R70). -/
  | add (rd rs rt : Reg)
  /-- `sub $rd, $rs, $rt` (R71). -/
  | sub (rd rs rt : Reg)
  /-- `and $rd, $rs, $rt` (R72). -/
  | and (rd rs rt : Reg)
  /-- `or $rd, $rs, $rt` (R73). -/
  | or (rd rs rt : Reg)
  /-- `slt $rd, $rs, $rt` (R74). -/
  | slt (rd rs rt : Reg)
  /-- `mult $rs, $rt` (R76). -/
  | mult (rs rt : Reg)
  /-- `div $rs, $rt` (R77). -/
  | div (rs rt : Reg)
  /-- `mfhi $rd` (R78). -/
  | mfhi (rd : Reg)
  /-- `mflo $rd` (R79). -/
  | mflo (rd : Reg)
  /-- `jr $rs` (R91). -/
  | jr (rs : Reg)
  /-- `lw $rt, imm($rs)` (R81). -/
  | lw (rt rs : Reg) (imm : Imm16)
  /-- `sw $rt, imm($rs)` (R82); `rt` is the source of the stored word. -/
  | sw (rt rs : Reg) (imm : Imm16)
  /-- `addi $rt, $rs, imm` (R83). -/
  | addi (rt rs : Reg) (imm : Imm16)
  /-- `slti $rt, $rs, imm` (R84). -/
  | slti (rt rs : Reg) (imm : Imm16)
  /-- `beq $rs, $rt, dest` (R87). -/
  | beq (rs rt : Reg) (imm : Imm16)
  /-- `bne $rs, $rt, dest` (R88). -/
  | bne (rs rt : Reg) (imm : Imm16)
  /-- `j dest` (R89). -/
  | j (target : Target26)
  /-- `jal dest` (R90). -/
  | jal (target : Target26)
deriving DecidableEq, Repr

end Sys2Proof
end

