-- ==== Sys2Proof/Config.lean ====
section
/-! DEFINITION. What is fixed for a run and not by the instruction set: the open launch parameters of
spec/00_scope.md R5 (`BYTE_ORDER`, `MEM_VALID`, `TEXT_RANGE`, `ENTRY_PC`, `HALT_PC`) and the free
values `any32` of R8. -/

namespace Sys2Proof

/-- `BYTE_ORDER` (R5, R31): an open parameter, unobservable to programs. -/
inductive ByteOrder where
  /-- The byte at the lowest address of a word is `w[31:24]`. -/
  | big
  /-- The byte at the lowest address of a word is `w[7:0]`. -/
  | little
deriving DecidableEq, Repr

/-- What a populated region holds: the loaded program, or anything else (R41). -/
inductive RegionKind where
  /-- Words of `TEXT_RANGE`. -/
  | text
  /-- Words of `MEM_VALID` that are not the program. -/
  | data
deriving DecidableEq, Repr

/-- A run of consecutive words of populated memory, by word address (R29: a byte address divided by 4). -/
structure Region where
  /-- The word address of the first word. -/
  first : Nat
  /-- How many words the region has. -/
  words : Nat
  /-- Program or data. -/
  kind : RegionKind
deriving DecidableEq, Repr

/-- Whether the byte address `a` is one of the region's word-aligned addresses. -/
def Region.contains (r : Region) (a : Word) : Bool :=
  a.toNat % 4 == 0 && r.first ≤ a.toNat / 4 && a.toNat / 4 < r.first + r.words

/-- The launch parameters of R5 and R110 as plain data (log 2). They are fixed for a run. -/
structure Launch where
  /-- `BYTE_ORDER`. -/
  byteOrder : ByteOrder
  /-- The populated regions: together they are `MEM_VALID`, those of kind text are `TEXT_RANGE`
  (DESIGN CHOICE, safe: a finite set of words is always such a list, log 3). -/
  map : List Region
  /-- `ENTRY_PC`. -/
  entryPc : Word
  /-- `HALT_PC`. -/
  haltPc : Word
deriving DecidableEq, Repr

/-- `a ∈ MEM_VALID` (R36): some region holds the word-aligned address `a`. -/
def Launch.memValid (l : Launch) (a : Word) : Bool :=
  l.map.any (fun r => r.contains a)

/-- `a ∈ TEXT_RANGE` (R41): some region of kind text holds it. -/
def Launch.inText (l : Launch) (a : Word) : Bool :=
  l.map.any (fun r => r.kind == .text && r.contains a)

/-- DESIGN CHOICE (unsafe, log 4): the launch that `State.reset` takes, since R27 and R109 leave every
parameter open. Big-endian; all 2^30 words populated as data; no program; `ENTRY_PC` is the address
the spec's own launches use (V40, P2 to P6); `HALT_PC` is 0, so that `$ra`, 0 at reset, holds it, as
R112 recommends. -/
def Launch.default : Launch where
  byteOrder := .big
  map := [⟨0, 2 ^ 30, .data⟩]
  entryPc := 0x00400000#32
  haltPc := 0#32

/-- `any32` (R8): the n-th draw of a run, a 32-bit value the spec does not determine. It has no body,
so that no claim can depend on a draw (log 8). -/
opaque Config.any32 : Nat → BitVec 32

end Sys2Proof
end

