-- ==== Sys2Proof/WellFormed.lean ====
section
/-! DEFINITION. Well-formedness: of instructions (spec/30_encoding.md R64: no register number is
illegal, and each field's width is in its operand's type, so every term of the syntax is well formed,
log 24) and of a launch (spec/70_reset_and_hazards.md R110). -/

namespace Sys2Proof

/-- R64: "Register fields take all 32 values, including 0 and 31, in every position; no register
number is illegal". The immediates and targets are exactly as wide as their fields, so the check has
nothing left to refuse (log 24). -/
def Instr.wellFormed : Instr → Bool
  | .add _ _ _ | .sub _ _ _ | .and _ _ _ | .or _ _ _ | .slt _ _ _ => true
  | .mult _ _ | .div _ _ | .mfhi _ | .mflo _ | .jr _ => true
  | .lw _ _ _ | .sw _ _ _ | .addi _ _ _ | .slti _ _ _ => true
  | .beq _ _ _ | .bne _ _ _ | .j _ | .jal _ => true

/-- A region lies inside the 2^30 words of the address space (R28). -/
def Region.wellFormed (r : Region) : Bool :=
  r.first + r.words ≤ 2 ^ 30

/-- What R110 and R113 ask of a launch: `ENTRY_PC` and `HALT_PC` are multiples of 4, `HALT_PC` is not
in `TEXT_RANGE`, and memory lies inside the address space. (`TEXT_RANGE ⊆ MEM_VALID` holds by the
shape of the map.) -/
def Launch.wellFormed (l : Launch) : Bool :=
  l.entryPc.toNat % 4 == 0 && l.haltPc.toNat % 4 == 0 && !l.inText l.haltPc &&
    l.map.all Region.wellFormed

end Sys2Proof
end

