-- ==== Sys2Proof/Decode.lean ====
section
/-! DEFINITION. Decoding and encoding, from spec/30_encoding.md: the opcode map R53, the function
codes R54, `decode` R64 to R66, the encoding formulas R68. Every word decodes to exactly one of the
eighteen instructions or is reserved, and then the decoder says which rule reserves it. -/

namespace Sys2Proof

/-- Why a word is reserved (R65, R66). The machine treats the three alike. -/
inductive Reserved where
  /-- The opcode is not listed in R53. -/
  | opcode
  /-- The opcode is 0 and the function code is not listed in R54. -/
  | funct
  /-- A listed function code with a non-zero field that the instruction does not use (R65). -/
  | unusedField
deriving DecidableEq, Repr

/-- `OP_LW` (R53, C7, D24): the value the spec's source prints; full MIPS32 uses 35 (log 12). -/
def opLw : BitVec 6 := 36#6

/-- `OP_SW` (R53, C7, D24): the value the spec's source prints; full MIPS32 uses 43 (log 12). -/
def opSw : BitVec 6 := 44#6

/-- `w[31:26]` (R44). -/
def opField (w : Word) : BitVec 6 := w.extractLsb' 26 6
/-- `w[25:21]` (R45, R46). -/
def rsField (w : Word) : Reg := w.extractLsb' 21 5
/-- `w[20:16]` (R45, R46). -/
def rtField (w : Word) : Reg := w.extractLsb' 16 5
/-- `w[15:11]` (R45). -/
def rdField (w : Word) : Reg := w.extractLsb' 11 5
/-- `w[10:6]` (R45). -/
def shamtField (w : Word) : BitVec 5 := w.extractLsb' 6 5
/-- `w[5:0]` (R45). -/
def functField (w : Word) : BitVec 6 := w.extractLsb' 0 6
/-- `w[15:0]` (R46). -/
def immField (w : Word) : Imm16 := w.extractLsb' 0 16
/-- `w[25:0]` (R47). -/
def targetField (w : Word) : Target26 := w.extractLsb' 0 26

/-- The instruction `i` if the fields it does not use are zero, else reserved (R65). -/
def ifUnusedZero (unusedZero : Bool) (i : Instr) : Except Reserved Instr :=
  if unusedZero then .ok i else .error .unusedField

/-- The R format: `op = 0`, told apart by `funct` (R54, R64). -/
def decodeR (w : Word) : Except Reserved Instr :=
  let rs := rsField w
  let rt := rtField w
  let rd := rdField w
  let shamt0 := shamtField w == 0#5
  let funct := functField w
  if funct = 32#6 then ifUnusedZero shamt0 (.add rd rs rt)
  else if funct = 34#6 then ifUnusedZero shamt0 (.sub rd rs rt)
  else if funct = 36#6 then ifUnusedZero shamt0 (.and rd rs rt)
  else if funct = 37#6 then ifUnusedZero shamt0 (.or rd rs rt)
  else if funct = 42#6 then ifUnusedZero shamt0 (.slt rd rs rt)
  else if funct = 24#6 then ifUnusedZero (rd == 0#5 && shamt0) (.mult rs rt)
  else if funct = 26#6 then ifUnusedZero (rd == 0#5 && shamt0) (.div rs rt)
  else if funct = 16#6 then ifUnusedZero (rs == 0#5 && rt == 0#5 && shamt0) (.mfhi rd)
  else if funct = 18#6 then ifUnusedZero (rs == 0#5 && rt == 0#5 && shamt0) (.mflo rd)
  else if funct = 8#6 then ifUnusedZero (rt == 0#5 && rd == 0#5 && shamt0) (.jr rs)
  else .error .funct

/-- `decode(w)` (R64): total on words; the format is selected by the opcode alone (R48). -/
def decode (w : Word) : Except Reserved Instr :=
  let op := opField w
  if op = 0#6 then decodeR w
  else if op = 2#6 then .ok (.j (targetField w))
  else if op = 3#6 then .ok (.jal (targetField w))
  else if op = 4#6 then .ok (.beq (rsField w) (rtField w) (immField w))
  else if op = 5#6 then .ok (.bne (rsField w) (rtField w) (immField w))
  else if op = 8#6 then .ok (.addi (rtField w) (rsField w) (immField w))
  else if op = 10#6 then .ok (.slti (rtField w) (rsField w) (immField w))
  else if op = opLw then .ok (.lw (rtField w) (rsField w) (immField w))
  else if op = opSw then .ok (.sw (rtField w) (rsField w) (immField w))
  else .error .opcode

/-- `R(rs, rt, rd, shamt, funct)` of R68; the opcode is 0. -/
def encodeR (rs rt rd shamt : BitVec 5) (funct : BitVec 6) : Word :=
  BitVec.ofNat 32 (rs.toNat * 2 ^ 21 + rt.toNat * 2 ^ 16 + rd.toNat * 2 ^ 11
    + shamt.toNat * 2 ^ 6 + funct.toNat)

/-- `I(op, rs, rt, imm16)` of R68. -/
def encodeI (op : BitVec 6) (rs rt : Reg) (imm : Imm16) : Word :=
  BitVec.ofNat 32 (op.toNat * 2 ^ 26 + rs.toNat * 2 ^ 21 + rt.toNat * 2 ^ 16 + imm.toNat)

/-- `J(op, target26)` of R68. -/
def encodeJ (op : BitVec 6) (target : Target26) : Word :=
  BitVec.ofNat 32 (op.toNat * 2 ^ 26 + target.toNat)

/-- The word of an instruction (R68 with the codes of R53 and R54); unused fields are zero (R65). -/
def encode : Instr → Word
  | .add rd rs rt => encodeR rs rt rd 0#5 32#6
  | .sub rd rs rt => encodeR rs rt rd 0#5 34#6
  | .and rd rs rt => encodeR rs rt rd 0#5 36#6
  | .or rd rs rt => encodeR rs rt rd 0#5 37#6
  | .slt rd rs rt => encodeR rs rt rd 0#5 42#6
  | .mult rs rt => encodeR rs rt 0#5 0#5 24#6
  | .div rs rt => encodeR rs rt 0#5 0#5 26#6
  | .mfhi rd => encodeR 0#5 0#5 rd 0#5 16#6
  | .mflo rd => encodeR 0#5 0#5 rd 0#5 18#6
  | .jr rs => encodeR rs 0#5 0#5 0#5 8#6
  | .lw rt rs imm => encodeI opLw rs rt imm
  | .sw rt rs imm => encodeI opSw rs rt imm
  | .addi rt rs imm => encodeI 8#6 rs rt imm
  | .slti rt rs imm => encodeI 10#6 rs rt imm
  | .beq rs rt imm => encodeI 4#6 rs rt imm
  | .bne rs rt imm => encodeI 5#6 rs rt imm
  | .j target => encodeJ 2#6 target
  | .jal target => encodeJ 3#6 target

/-- The word whose low `nbits` bits are those of `w` and whose other bits are 0. -/
def tableWord (nbits w : Nat) : Word :=
  BitVec.ofNat 32 (w % 2 ^ nbits)

/-- The instruction the decoder reads from the table's number `w` (every row has one 32-bit word,
numbered as R6 numbers it), or none where the word is reserved. -/
def decodeTableWord (nbits w : Nat) : Option Instr :=
  match decode (tableWord nbits w) with
  | .ok i => some i
  | .error _ => none

end Sys2Proof
end

