-- ==== Sys2Proof/Machine/State.lean ====
section
/-! DEFINITION. The state of LM-MIPS32 as plain data (spec/10_state.md R13 to R27), its faults and
refusals (spec/60_exceptions.md R93, R100), the launch state (spec/70_reset_and_hazards.md R110) and
the state after reset. -/

namespace Sys2Proof.Machine

/-- The six faults of R93, the only ones. Each records the `pc` of the step that raised it and, where
R93 names one, its `info`. A fault ends the run (R99); that errs toward unprovable (D13), so each is safe. -/
inductive Fault where
  /-- F1, raised by the fetch of any step whose `pc` is not a multiple of 4 (R95); `info` is that `pc`. Safe. -/
  | addressErrorFetch (pc a : Word)
  /-- F2, raised by fetch, `lw`, `sw` at an aligned address outside `MEM_VALID` (R98); `info` is the address. Safe. -/
  | accessFault (pc a : Word)
  /-- F3, raised by decoding a reserved word (R94); `info` is the word. Safe. -/
  | reservedInstruction (pc w : Word)
  /-- F4, raised by `add`, `sub`, `addi` when the signed result does not fit 32 bits (R97); no `info`. Safe. -/
  | integerOverflow (pc : Word)
  /-- F5, raised by `lw` at a misaligned effective address (R96); `info` is that address. Safe. -/
  | addressErrorLoad (pc a : Word)
  /-- F6, raised by `sw` at a misaligned effective address (R96); `info` is that address. Safe. -/
  | addressErrorStore (pc a : Word)
deriving DecidableEq, Repr

/-- The `pc` a fault records (R93). -/
def Fault.pc : Fault → Word
  | .addressErrorFetch pc _ | .accessFault pc _ | .reservedInstruction pc _ => pc
  | .integerOverflow pc | .addressErrorLoad pc _ | .addressErrorStore pc _ => pc

/-- The `info` a fault records, where R93 gives it one. -/
def Fault.info : Fault → Option Word
  | .addressErrorFetch _ a | .accessFault _ a | .reservedInstruction _ a => some a
  | .integerOverflow _ => none
  | .addressErrorLoad _ a | .addressErrorStore _ a => some a

/-- The code F1 to F6 of R93, as its number. -/
def Fault.code : Fault → Nat
  | .addressErrorFetch _ _ => 1
  | .accessFault _ _ => 2
  | .reservedInstruction _ _ => 3
  | .integerOverflow _ => 4
  | .addressErrorLoad _ _ => 5
  | .addressErrorStore _ _ => 6

/-- The situations to which the spec gives no meaning (R100). -/
inductive Refusal where
  /-- Raised by an arm of `exec` whose instruction has no meaning yet; no arm raises it now. Safe. -/
  | notModelled (mnemonic : String)
  /-- Raised by a fetch from `MEM_VALID` outside `TEXT_RANGE` (R41, R100), with the `pc`. Safe (D6). -/
  | fetchOutsideText (pc : Word)
  /-- Raised by `sw` into `TEXT_RANGE` (R41, R100), with the `pc` and the address. Safe (D6). -/
  | storeToText (pc a : Word)
deriving DecidableEq, Repr

/-- Memory as a list of (byte address, byte) pairs (R23, R28; log 29). -/
abbrev Memory := List Host.Cell

/-- DESIGN CHOICE (unsafe, log 6): what a byte that is not listed reads as. R27 leaves the launch
contents of memory open, as a definite value; every contents is a list, so `State` has them all. -/
def unlistedByte : Byte := 0#8

/-- The canonical form: addresses strictly rising, inside the 2^32 bytes of R28, and no entry equal
to what an unlisted address reads as. -/
abbrev Memory.wf (m : Memory) : Prop :=
  m.Pairwise (fun c d => c.1 < d.1) ∧ ∀ c ∈ m, c.1 < 2 ^ 32 ∧ c.2 ≠ unlistedByte

/-- The state: the tuple of 10_state.md (R13, R16, R19, R23), the bookkeeping of R25, the launch
parameters of R5 (log 2) and the model's own draw counter (log 8). -/
structure State where
  /-- `x[1]` … `x[31]` (R13); `x[0]` is the constant 0 and has no cell (R14). -/
  x : Vector Word 31
  /-- The program counter (R16): during an instruction, the address it was fetched from (R17). -/
  pc : Word
  /-- `HI` (R19). -/
  hi : Word
  /-- `LO` (R19). -/
  lo : Word
  /-- Memory (R23). -/
  mem : Memory
  /-- The fault record (R25, R99): empty until a fault ends the run. -/
  faultRecord : Option Fault
  /-- The refused mark (R25, R100): empty until a refusal ends the run. -/
  refusedMark : Option Refusal
  /-- The launch parameters (R5, R110), fixed for the run. -/
  launch : Launch
  /-- The MODEL's own: how many `any32` draws the run has made (R8, R77). -/
  draws : Nat
deriving DecidableEq, Repr

/-- `INIT` (R5, R27): the launch values of registers 1 to 31, `HI`, `LO` and memory. -/
structure Init where
  /-- `INIT.x[1]` … `INIT.x[31]`. -/
  x : Vector Word 31
  /-- `INIT.HI`. -/
  hi : Word
  /-- `INIT.LO`. -/
  lo : Word
  /-- `INIT.mem`, with the program's words stored in `TEXT_RANGE`. -/
  mem : Memory
deriving DecidableEq, Repr

/-- DESIGN CHOICE (unsafe, logs 5 and 6): the `INIT` that `State.reset` takes, all zero. -/
def Init.zero : Init where
  x := Vector.replicate 31 0#32
  hi := 0#32
  lo := 0#32
  mem := []

/-- The launch state of R110 and R27: `pc = ENTRY_PC`, the values of `INIT`, an empty fault record, no
refusal mark, no draw made. -/
def State.atLaunch (l : Launch) (init : Init) : State where
  x := init.x
  pc := l.entryPc
  hi := init.hi
  lo := init.lo
  mem := init.mem
  faultRecord := none
  refusedMark := none
  launch := l
  draws := 0

/-- The machine right after reset. The spec replaces reset by launch (R109) and leaves the launch's
values open, so this is one launch, with the values that logs 4, 5, 6 and 8 name; no program is
loaded (log 11). -/
def State.reset : State := State.atLaunch Launch.default Init.zero

end Sys2Proof.Machine
end

