-- ==== Sys2Proof/Machine/Ops.lean ====
section
/-! DEFINITION. The named operations over registers, the program counter and memory that the
instruction rules use (spec/00_scope.md R8), raising a fault (spec/60_exceptions.md R99), and the
instruction fetch (spec/10_state.md R18 steps 2 to 5). -/

namespace Sys2Proof.Machine

/-! ## Sequencing and raising -/

/-- Continue with the value of an outcome; a fault or a refusal ends the step there. -/
def andThen {α β : Type} (o : Host.Outcome α Fault Refusal)
    (k : α → Host.Outcome β Fault Refusal) : Host.Outcome β Fault Refusal :=
  match o with
  | .next a => k a
  | .fault f => .fault f
  | .refused r => .refused r

/-- `raise F(info)` (R8, R99): taking a fault. The step ends with the fault, its `info` and the `pc`
of the state before the step, and no effect of the instruction happens. There is no vector, no saved
register and no change of mode (R99), and no return from it (R103). -/
def State.raise {α : Type} (s : State) (f : Word → Fault) : Host.Outcome α Fault Refusal :=
  .fault (f s.pc)

/-! ## General registers -/

/-- `x[r]` (R8, R14): `x[0]` is always 0. -/
def State.reg (s : State) (r : Reg) : Word :=
  if r = 0#5 then 0#32 else s.x[r.toNat - 1]'(by omega)

/-- `x[r] <- v` (R8, R14): a write to `x[0]` has no effect. -/
def State.setReg (s : State) (r : Reg) (v : Word) : State :=
  { s with x := if r = 0#5 then s.x else s.x.set (r.toNat - 1) v (by omega) }

/-! ## The program counter, HI and LO -/

/-- `npc`, `pc + 4` modulo 2^32 (R8, R17, R26). -/
def State.npc (s : State) : Word := s.pc + 4#32

/-- `pc <- t` (R8). -/
def State.setPc (s : State) (t : Word) : State := { s with pc := t }

/-- `pc <- npc`: how a rule that does not name a target ends (R8). -/
def State.advance (s : State) : State := s.setPc s.npc

/-- `HI <- h; LO <- l` (R8, R19). -/
def State.setHiLo (s : State) (h l : Word) : State := { s with hi := h, lo := l }

/-- `HI <- any32; LO <- any32` (R8, R77): two fresh draws, the first to `HI` (log 8). -/
def State.drawHiLo (s : State) : State :=
  { s with hi := Config.any32 s.draws, lo := Config.any32 (s.draws + 1), draws := s.draws + 2 }

/-! ## Bytes of memory -/

/-- The byte at address `a`. -/
def Memory.readByte (m : Memory) (a : Nat) : Byte :=
  match m with
  | [] => unlistedByte
  | c :: rest => if c.1 = a then c.2 else Memory.readByte rest a

/-- Remove what is listed at `a`. -/
def Memory.erase (m : Memory) (a : Nat) : Memory :=
  m.filter (fun c => c.1 != a)

/-- Put a cell where its address stands in the rising order. -/
def Memory.insertCell (m : Memory) (c : Host.Cell) : Memory :=
  match m with
  | [] => [c]
  | d :: rest => if c.1 < d.1 then c :: d :: rest else d :: Memory.insertCell rest c

/-- Write one byte, keeping the canonical form: the value an unlisted address reads as is not listed. -/
def Memory.writeByte (m : Memory) (a : Nat) (v : Byte) : Memory :=
  if v = unlistedByte then Memory.erase m a else Memory.insertCell (Memory.erase m a) (a, v)

/-! ## Words of memory: the byte order (R31) is decided here and nowhere else -/

/-- The address of byte `k` of the word at `a`. -/
def byteAddr (a : Word) (k : Nat) : Nat := (a + BitVec.ofNat 32 k).toNat

/-- Byte `k` (0 at the lowest address) of the word `v` (R31). -/
def byteOfWord (o : ByteOrder) (v : Word) (k : Nat) : Byte :=
  match o with
  | .big => v.extractLsb' (8 * (3 - k)) 8
  | .little => v.extractLsb' (8 * k) 8

/-- The word whose bytes, from the lowest address up, are `b0` to `b3` (R31). -/
def wordOfBytes (o : ByteOrder) (b0 b1 b2 b3 : Byte) : Word :=
  match o with
  | .big => b0 ++ b1 ++ b2 ++ b3
  | .little => b3 ++ b2 ++ b1 ++ b0

/-- `mem[a]`, the word at `a` (R33). -/
def Memory.readWord (o : ByteOrder) (m : Memory) (a : Word) : Word :=
  wordOfBytes o (Memory.readByte m (byteAddr a 0)) (Memory.readByte m (byteAddr a 1))
    (Memory.readByte m (byteAddr a 2)) (Memory.readByte m (byteAddr a 3))

/-- `mem[a] <- v` (R34). -/
def Memory.writeWord (o : ByteOrder) (m : Memory) (a : Word) (v : Word) : Memory :=
  let m0 := Memory.writeByte m (byteAddr a 0) (byteOfWord o v 0)
  let m1 := Memory.writeByte m0 (byteAddr a 1) (byteOfWord o v 1)
  let m2 := Memory.writeByte m1 (byteAddr a 2) (byteOfWord o v 2)
  Memory.writeByte m2 (byteAddr a 3) (byteOfWord o v 3)

/-- The word the state's memory holds at `a`, in the launch's byte order (R33). -/
def State.word (s : State) (a : Word) : Word :=
  Memory.readWord s.launch.byteOrder s.mem a

/-- The state with the word `v` stored at `a` (R34): the unchecked store. -/
def State.setWord (s : State) (a v : Word) : State :=
  { s with mem := Memory.writeWord s.launch.byteOrder s.mem a v }

/-! ## Checked accesses -/

/-- `MemRead(ea, 4)` as `lw` makes it (R33, R81): alignment, then `MEM_VALID`, then the word. -/
def State.loadWord (s : State) (ea : Word) : Host.Outcome Word Fault Refusal :=
  if ¬ aligned ea then s.raise (fun pc => .addressErrorLoad pc ea)
  else if s.launch.memValid ea = false then s.raise (fun pc => .accessFault pc ea)
  else .next (s.word ea)

/-- `MemWrite(ea, 4, v)` as `sw` makes it (R34, R82): alignment, then `MEM_VALID`, then the refusal of
a store into the program (R41), then the store. -/
def State.storeWord (s : State) (ea v : Word) : Host.Outcome State Fault Refusal :=
  if ¬ aligned ea then s.raise (fun pc => .addressErrorStore pc ea)
  else if s.launch.memValid ea = false then s.raise (fun pc => .accessFault pc ea)
  else if s.launch.inText ea = true then .refused (.storeToText s.pc ea)
  else .next (s.setWord ea v)

/-- The instruction fetch (R18 steps 2 to 5, R41, R95, R98): the word at `pc`. -/
def State.fetch (s : State) : Host.Outcome Word Fault Refusal :=
  if ¬ aligned s.pc then s.raise (fun pc => .addressErrorFetch pc s.pc)
  else if s.launch.memValid s.pc = false then s.raise (fun pc => .accessFault pc s.pc)
  else if s.launch.inText s.pc = false then .refused (.fetchOutsideText s.pc)
  else .next (s.word s.pc)

/-! ## Loading one instruction (the launcher's act, not an instruction's; log 11, log 23) -/

/-- The launch with the one word at `a` added to `TEXT_RANGE`, and `HALT_PC` moved off `a`. -/
def Launch.withTextWord (l : Launch) (a : Word) : Launch :=
  { l with
    map := ⟨a.toNat / 4, 1, .text⟩ :: l.map
    haltPc := if l.haltPc = a then a + 4#32 else l.haltPc }

/-- The state with `w` loaded as the program's word at `pc` (made a multiple of 4), running: no fault
recorded, no refusal marked, `pc` not `HALT_PC`. -/
def State.loadAtPc (s : State) (w : Word) : State :=
  let a := s.pc - BitVec.ofNat 32 (s.pc.toNat % 4)
  { s with
    pc := a
    mem := Memory.writeWord s.launch.byteOrder s.mem a w
    faultRecord := none
    refusedMark := none
    launch := Launch.withTextWord s.launch a }

end Sys2Proof.Machine
end

