-- ==== Sys2Proof/Machine/Flags.lean ====
section
/-! DEFINITION. The machine has no flags (spec/10_state.md R20). What stands here are the two
conditions the arithmetic rules compute: signed overflow (R70, R71, R83, R97) and signed comparison
as a register value (R74, R84). -/

namespace Sys2Proof.Machine

/-- The mathematical integer fits a signed 32-bit register: -2^31 ≤ n ≤ 2^31 - 1 (R70, R97). -/
abbrev fitsSigned (n : Int) : Prop := -2 ^ 31 ≤ n ∧ n ≤ 2 ^ 31 - 1

/-- The value `slt` and `slti` write (R74, R84): 1 if `s(a) < s(b)`, else 0. -/
def setOnLess (a b : Word) : Word :=
  if a.toInt < b.toInt then 1#32 else 0#32

/-- The ending common to `add`, `sub` and `addi` (R70, R71, R83): overflow if the exact result does
not fit, else the register write of the 32-bit result and `pc <- npc`. -/
def State.writeIfFits (s : State) (rd : Reg) (exact : Int) (v : Word) :
    Host.Outcome State Fault Refusal :=
  if fitsSigned exact then .next (s.setReg rd v).advance
  else s.raise (fun pc => .integerOverflow pc)

end Sys2Proof.Machine
end

