-- ==== Sys2Proof/Machine/Operands.lean ====
section
/-! DEFINITION. The addressing modes of spec/30_encoding.md R55 to R59 and the operand assembly of
R49 to R52. Register addressing (R55) is `State.reg` and `State.setReg` of Ops.lean. -/

namespace Sys2Proof.Machine

/-- `sext_32(imm16)` (R7, R49, R50, D28): every immediate in scope is sign-extended. -/
def sext32 (imm : Imm16) : Word := imm.signExtend 32

/-- Base plus displacement (R57, R80): `(x[rs] + sext_32(imm16)) mod 2^32`, the offset in bytes. -/
def State.baseDisp (s : State) (rs : Reg) (imm : Imm16) : Word :=
  s.reg rs + sext32 imm

/-- PC-relative (R51, R58, R86): `(npc + (sext_32(imm16) << 2)) mod 2^32`. -/
def State.branchTarget (s : State) (imm : Imm16) : Word :=
  s.npc + (sext32 imm <<< 2)

/-- Pseudo-direct (R52, R59; D20: the PC is `npc`): `npc[31:28] || target26 || 00`. -/
def State.jumpTarget (s : State) (target : Target26) : Word :=
  s.npc.extractLsb' 28 4 ++ target ++ 0#2

end Sys2Proof.Machine
end

