-- ==== Sys2Proof/Machine/ArithLogic.lean ====
section
/-! DEFINITION. The R-type arithmetic, logic and comparison instructions: spec/40_rtype_arith_logic.md
R69 to R74. -/

namespace Sys2Proof.Machine

/-- `add` (R70). -/
def execAdd (rd rs rt : Reg) (s : State) : Host.Outcome State Fault Refusal :=
  s.writeIfFits rd ((s.reg rs).toInt + (s.reg rt).toInt) (s.reg rs + s.reg rt)

/-- `sub` (R71): `rs` is the minuend. -/
def execSub (rd rs rt : Reg) (s : State) : Host.Outcome State Fault Refusal :=
  s.writeIfFits rd ((s.reg rs).toInt - (s.reg rt).toInt) (s.reg rs - s.reg rt)

/-- `and` (R72). -/
def execAnd (rd rs rt : Reg) (s : State) : Host.Outcome State Fault Refusal :=
  .next (s.setReg rd (s.reg rs &&& s.reg rt)).advance

/-- `or` (R73). -/
def execOr (rd rs rt : Reg) (s : State) : Host.Outcome State Fault Refusal :=
  .next (s.setReg rd (s.reg rs ||| s.reg rt)).advance

/-- `slt` (R74). -/
def execSlt (rd rs rt : Reg) (s : State) : Host.Outcome State Fault Refusal :=
  .next (s.setReg rd (setOnLess (s.reg rs) (s.reg rt))).advance

end Sys2Proof.Machine
end

