-- ==== Sys2Proof/Machine/Branch.lean ====
section
/-! DEFINITION. Conditional branches: spec/44_branch.md R86 to R88. No delay slot (R114). -/

namespace Sys2Proof.Machine

/-- Branch if the condition holds, else go on (R86): "if the condition holds, `pc <- target`;
otherwise `pc <- npc`". -/
def State.branchIf (s : State) (taken : Prop) [Decidable taken] (imm : Imm16) : State :=
  if taken then s.setPc (s.branchTarget imm) else s.advance

/-- `beq` (R87). -/
def execBeq (rs rt : Reg) (imm : Imm16) (s : State) : Host.Outcome State Fault Refusal :=
  .next (s.branchIf (s.reg rs = s.reg rt) imm)

/-- `bne` (R88). -/
def execBne (rs rt : Reg) (imm : Imm16) (s : State) : Host.Outcome State Fault Refusal :=
  .next (s.branchIf (s.reg rs ≠ s.reg rt) imm)

end Sys2Proof.Machine
end

