-- ==== Sys2Proof/Machine/Immediate.lean ====
section
/-! DEFINITION. Arithmetic and comparison with an immediate: spec/43_itype_arith_imm.md R83, R84. -/

namespace Sys2Proof.Machine

/-- `addi` (R83). -/
def execAddi (rt rs : Reg) (imm : Imm16) (s : State) : Host.Outcome State Fault Refusal :=
  s.writeIfFits rt ((s.reg rs).toInt + (sext32 imm).toInt) (s.reg rs + sext32 imm)

/-- `slti` (R84). -/
def execSlti (rt rs : Reg) (imm : Imm16) (s : State) : Host.Outcome State Fault Refusal :=
  .next (s.setReg rt (setOnLess (s.reg rs) (sext32 imm))).advance

end Sys2Proof.Machine
end

