-- ==== Sys2Proof/Machine/Jump.lean ====
section
/-! DEFINITION. Unconditional jumps, call and return: spec/45_jump.md R89 to R92. No delay slot (R114). -/

namespace Sys2Proof.Machine

/-- `$ra`, the register `jal` writes (R15, R90). -/
def raReg : Reg := 31#5

/-- `j` (R89). -/
def execJ (target : Target26) (s : State) : Host.Outcome State Fault Refusal :=
  .next (s.setPc (s.jumpTarget target))

/-- `jal` (R90, D8): links `pc + 4`. -/
def execJal (target : Target26) (s : State) : Host.Outcome State Fault Refusal :=
  .next ((s.setReg raReg s.npc).setPc (s.jumpTarget target))

/-- `jr` (R91): all 32 bits of the register; a misaligned value faults at the next fetch. -/
def execJr (rs : Reg) (s : State) : Host.Outcome State Fault Refusal :=
  .next (s.setPc (s.reg rs))

end Sys2Proof.Machine
end

