-- ==== Sys2Proof/Machine/LoadStore.lean ====
section
/-! DEFINITION. Load and store: spec/42_itype_load_store.md R80 to R82. -/

namespace Sys2Proof.Machine

/-- `lw` (R81): the address is computed from the old `x[rs]`. -/
def execLw (rt rs : Reg) (imm : Imm16) (s : State) : Host.Outcome State Fault Refusal :=
  andThen (s.loadWord (s.baseDisp rs imm)) fun v => .next (s.setReg rt v).advance

/-- `sw` (R82). -/
def execSw (rt rs : Reg) (imm : Imm16) (s : State) : Host.Outcome State Fault Refusal :=
  andThen (s.storeWord (s.baseDisp rs imm) (s.reg rt)) fun s' => .next s'.advance

end Sys2Proof.Machine
end

