-- ==== Sys2Proof/Machine/MulDiv.lean ====
section
/-! DEFINITION. Multiply, divide and the moves from HI and LO: spec/41_rtype_muldiv_hilo.md R75 to R79. -/

namespace Sys2Proof.Machine

/-- The 64-bit pattern of the signed product (R76). -/
def signedProduct (a b : Word) : BitVec 64 := BitVec.ofInt 64 (a.toInt * b.toInt)

/-- `mult` (R76): the high half to `HI`, the low half to `LO`. -/
def execMult (rs rt : Reg) (s : State) : Host.Outcome State Fault Refusal :=
  let p := signedProduct (s.reg rs) (s.reg rt)
  .next (s.setHiLo (p.extractLsb' 32 32) (p.extractLsb' 0 32)).advance

/-- The two divisions without a stated result (R77): a zero divisor, and -2^31 / -1. -/
abbrev divUndefined (n d : Int) : Prop := d = 0 ∨ (n = -2 ^ 31 ∧ d = -1)

/-- `div` (R77): quotient rounded toward zero to `LO`, remainder to `HI`; two draws where no result
is stated. It never faults. -/
def execDiv (rs rt : Reg) (s : State) : Host.Outcome State Fault Refusal :=
  let n := (s.reg rs).toInt
  let d := (s.reg rt).toInt
  if divUndefined n d then .next s.drawHiLo.advance
  else
    let q := n.tdiv d
    .next (s.setHiLo (BitVec.ofInt 32 (n - q * d)) (BitVec.ofInt 32 q)).advance

/-- `mfhi` (R78). -/
def execMfhi (rd : Reg) (s : State) : Host.Outcome State Fault Refusal :=
  .next (s.setReg rd s.hi).advance

/-- `mflo` (R79). -/
def execMflo (rd : Reg) (s : State) : Host.Outcome State Fault Refusal :=
  .next (s.setReg rd s.lo).advance

end Sys2Proof.Machine
end

