-- ==== Sys2Proof/Machine/Step.lean ====
section
/-! DEFINITION. The step of spec/10_state.md R18, and loading one instruction where it fetches. -/

namespace Sys2Proof.Machine

/-- One step (R18). A state that carries a fault record or a refused mark takes no further step
(R25, R99, R100): it answers with what it carries (log 27). At `HALT_PC` the run is final and no step
is taken: the state stays as it is (R113; DESIGN CHOICE, log 1). Otherwise fetch, decode, execute. -/
def step (s : State) : Host.Outcome State Fault Refusal :=
  match s.faultRecord, s.refusedMark with
  | some f, _ => .fault f
  | none, some r => .refused r
  | none, none =>
    if s.pc = s.launch.haltPc then .next s
    else andThen s.fetch fun w =>
      match decode w with
      | .ok i => exec i s
      | .error _ => s.raise (fun pc => .reservedInstruction pc w)

/-- The state with the word whose low `nbits` bits are `w` loaded as the program's word at `pc`, so
that the very next step runs it. It stands for the launch's loading of a program (R110; log 11, log 23). -/
def State.withFetchWord (s : State) (nbits w : Nat) : State :=
  s.loadAtPc (tableWord nbits w)

end Sys2Proof.Machine
end

