-- ==== Sys2Proof/Machine/Asm.lean ====
section
/-! DEFINITION. What spec/30_encoding.md R61, R62 and spec/10_state.md R15 say of assembly operands,
beside the machine: the meaning of a program is the meaning of its words (spec/00_scope.md R12), and
neither `exec` nor `step` calls anything here (log 21). -/

namespace Sys2Proof.Machine

/-- The register names of R15, without their `$`; register 30 has two. -/
def regNames : List (String × Reg) :=
  [("zero", 0#5), ("at", 1#5), ("v0", 2#5), ("v1", 3#5)] ++
  [("a0", 4#5), ("a1", 5#5), ("a2", 6#5), ("a3", 7#5)] ++
  [("t0", 8#5), ("t1", 9#5), ("t2", 10#5), ("t3", 11#5)] ++
  [("t4", 12#5), ("t5", 13#5), ("t6", 14#5), ("t7", 15#5)] ++
  [("s0", 16#5), ("s1", 17#5), ("s2", 18#5), ("s3", 19#5)] ++
  [("s4", 20#5), ("s5", 21#5), ("s6", 22#5), ("s7", 23#5)] ++
  [("t8", 24#5), ("t9", 25#5), ("k0", 26#5), ("k1", 27#5)] ++
  [("gp", 28#5), ("sp", 29#5), ("s8", 30#5), ("fp", 30#5), ("ra", 31#5)]

/-- The register a conventional name denotes (R11, R15). -/
def regOfName (name : String) : Option Reg :=
  regNames.lookup name

/-- The field of a decimal immediate or offset, which "must fit 16 signed bits" (R61). -/
def immOperand (n : Int) : Option Imm16 :=
  if -2 ^ 15 ≤ n ∧ n ≤ 2 ^ 15 - 1 then some (BitVec.ofInt 16 n) else none

/-- The field of a numeric branch distance in bytes from `npc` (R62, D22): a distance that is not a
multiple of 4 has no encoding. -/
def branchOperand (bytes : Int) : Option Imm16 :=
  if bytes % 4 = 0 then immOperand (bytes / 4) else none

/-- The field of a branch at `branch` to the label at `label`:
`(address(label) − (address(branch) + 4)) / 4` (R62). -/
def branchToLabel (branch label : Word) : Option Imm16 :=
  branchOperand ((label.toNat : Int) - ((branch.toNat : Int) + 4))

/-- The field of `j` and `jal` to an absolute byte address: `address[27:2]` (R62). -/
def jumpOperand (dest : Word) : Target26 := dest.extractLsb' 2 26

/-- `subi $rt, $rs, n` is no machine instruction; it reads as `addi $rt, $rs, -n`, which -32768 does
not have (R85, D23). -/
def subiReading (rt rs : Reg) (n : Int) : Option Instr :=
  match immOperand n, immOperand (-n) with
  | some _, some imm => some (.addi rt rs imm)
  | _, _ => none

end Sys2Proof.Machine
end

