-- ==== Sys2Proof/Safety.lean ====
section
/-! DEFINITION. The words claims are made in: final, faulted and refused runs (spec/70_reset_and_hazards.md
R113, spec/60_exceptions.md R99, R100), the invariant of the state, the frames of the instruction
families, and the read and write table of spec/10_state.md R22. -/

namespace Sys2Proof.Machine

/-! ## Runs -/

/-- R113: "final exactly when `pc = HALT_PC` with no fault recorded and no refusal mark". -/
abbrev State.final (s : State) : Prop :=
  s.pc = s.launch.haltPc ∧ s.faultRecord = none ∧ s.refusedMark = none

/-- Nothing is recorded: the state may take a step. -/
abbrev State.running (s : State) : Prop :=
  s.faultRecord = none ∧ s.refusedMark = none

/-- The run's state after a step, with the bookkeeping of R25: after a fault or a refusal it is the
state before the step, with the fault record or the refused mark set (R99, R100). -/
def State.settle (s : State) : State :=
  match step s with
  | .next t => t
  | .fault f => { s with faultRecord := some f }
  | .refused r => { s with refusedMark := some r }

/-- The run's state after `k` steps. -/
def State.settleMany : Nat → State → State
  | 0, s => s
  | k + 1, s => State.settleMany k s.settle

/-- `k` steps from `s` end in `t`, none of them in a fault or a refusal. -/
abbrev runsTo (k : Nat) (s t : State) : Prop :=
  Sys2Proof.core.run k s = .next t

/-! ## The invariant -/

/-- Memory is in its canonical form, lists bytes of `MEM_VALID` only (R23: `mem` is defined on
`MEM_VALID`), and the launch satisfies R110. -/
abbrev State.wf (s : State) : Prop :=
  Memory.wf s.mem ∧ (∀ c ∈ s.mem, s.launch.memValid (BitVec.ofNat 32 (c.1 / 4 * 4)) = true) ∧
    s.launch.wellFormed = true

/-! ## Frames -/

/-- The bookkeeping and the launch parameters are as they were. -/
structure SameBookkeeping (s t : State) : Prop where
  /-- No fault is recorded or cleared. -/
  faultRecord : t.faultRecord = s.faultRecord
  /-- No mark is set or cleared. -/
  refusedMark : t.refusedMark = s.refusedMark
  /-- The launch parameters are fixed. -/
  launch : t.launch = s.launch

/-- `t` is `s` with `v` in register `rd` (nowhere, for register 0) and `pc` on the next instruction;
all else is as it was. -/
structure WritesReg (s t : State) (rd : Reg) (v : Word) : Prop where
  /-- Every general register. -/
  regs : ∀ q, t.reg q = if q = 0#5 then 0#32 else if q = rd then v else s.reg q
  /-- `pc <- npc`. -/
  pc : t.pc = s.pc + 4#32
  /-- `HI` is unchanged. -/
  hi : t.hi = s.hi
  /-- `LO` is unchanged. -/
  lo : t.lo = s.lo
  /-- Every byte of memory is unchanged. -/
  mem : ∀ a, Memory.readByte t.mem a = Memory.readByte s.mem a
  /-- No draw is made. -/
  draws : t.draws = s.draws
  /-- The rest. -/
  rest : SameBookkeeping s t

/-- `t` is `s` with `h` in `HI`, `l` in `LO`, `n` more draws made and `pc` on the next instruction. -/
structure WritesHiLo (s t : State) (h l : Word) (n : Nat) : Prop where
  /-- No general register is written. -/
  regs : ∀ q, t.reg q = s.reg q
  /-- `pc <- npc`. -/
  pc : t.pc = s.pc + 4#32
  /-- `HI`. -/
  hi : t.hi = h
  /-- `LO`. -/
  lo : t.lo = l
  /-- Every byte of memory is unchanged. -/
  mem : ∀ a, Memory.readByte t.mem a = Memory.readByte s.mem a
  /-- The draws made. -/
  draws : t.draws = s.draws + n
  /-- The rest. -/
  rest : SameBookkeeping s t

/-- `t` is `s` with `target` in `pc`; all else is as it was. -/
structure WritesPc (s t : State) (target : Word) : Prop where
  /-- No general register is written. -/
  regs : ∀ q, t.reg q = s.reg q
  /-- `pc <- target`. -/
  pc : t.pc = target
  /-- `HI` is unchanged. -/
  hi : t.hi = s.hi
  /-- `LO` is unchanged. -/
  lo : t.lo = s.lo
  /-- Every byte of memory is unchanged. -/
  mem : ∀ a, Memory.readByte t.mem a = Memory.readByte s.mem a
  /-- No draw is made. -/
  draws : t.draws = s.draws
  /-- The rest. -/
  rest : SameBookkeeping s t

/-- `b` is one of the four byte addresses of the word at `a`. -/
abbrev inWord (a : Word) (b : Nat) : Prop :=
  b = byteAddr a 0 ∨ b = byteAddr a 1 ∨ b = byteAddr a 2 ∨ b = byteAddr a 3

/-- `t` is `s` with the word `v` stored at `a` and `pc` on the next instruction. -/
structure WritesWord (s t : State) (a v : Word) : Prop where
  /-- No general register is written. -/
  regs : ∀ q, t.reg q = s.reg q
  /-- `pc <- npc`. -/
  pc : t.pc = s.pc + 4#32
  /-- `HI` is unchanged. -/
  hi : t.hi = s.hi
  /-- `LO` is unchanged. -/
  lo : t.lo = s.lo
  /-- The stored word. -/
  stored : t.word a = v
  /-- Every byte outside the stored word is unchanged. -/
  mem : ∀ b, ¬ inWord a b → Memory.readByte t.mem b = Memory.readByte s.mem b
  /-- No draw is made. -/
  draws : t.draws = s.draws
  /-- The rest. -/
  rest : SameBookkeeping s t

/-! ## The read and write table (R22) -/

end Sys2Proof.Machine

namespace Sys2Proof

/-- The general register an instruction writes (R22): column `x[rd]`, `x[rt]` for `lw`, `addi`,
`slti`, and `x[31]` for `jal`. -/
def Instr.writes : Instr → Option Reg
  | .add rd _ _ | .sub rd _ _ | .and rd _ _ | .or rd _ _ | .slt rd _ _ => some rd
  | .mult _ _ | .div _ _ | .jr _ => none
  | .mfhi rd | .mflo rd => some rd
  | .lw rt _ _ | .addi rt _ _ | .slti rt _ _ => some rt
  | .sw _ _ _ | .beq _ _ _ | .bne _ _ _ | .j _ => none
  | .jal _ => some 31#5

/-- The general registers an instruction reads (R22). -/
def Instr.reads : Instr → List Reg
  | .add _ rs rt | .sub _ rs rt | .and _ rs rt | .or _ rs rt | .slt _ rs rt => [rs, rt]
  | .mult rs rt | .div rs rt => [rs, rt]
  | .mfhi _ | .mflo _ | .j _ | .jal _ => []
  | .jr rs => [rs]
  | .lw _ rs _ | .addi _ rs _ | .slti _ rs _ => [rs]
  | .sw rt rs _ => [rs, rt]
  | .beq rs rt _ | .bne rs rt _ => [rs, rt]

/-- The instructions that write `HI` and `LO` (R19, R22). -/
def Instr.isMultDiv : Instr → Bool
  | .mult _ _ | .div _ _ => true
  | .add _ _ _ | .sub _ _ _ | .and _ _ _ | .or _ _ _ | .slt _ _ _ => false
  | .mfhi _ | .mflo _ | .jr _ | .lw _ _ _ | .sw _ _ _ | .addi _ _ _ | .slti _ _ _ => false
  | .beq _ _ _ | .bne _ _ _ | .j _ | .jal _ => false

/-- The instructions that read `HI` or `LO` (R19, R22). -/
def Instr.isMoveFromHiLo : Instr → Bool
  | .mfhi _ | .mflo _ => true
  | .add _ _ _ | .sub _ _ _ | .and _ _ _ | .or _ _ _ | .slt _ _ _ | .mult _ _ | .div _ _ => false
  | .jr _ | .lw _ _ _ | .sw _ _ _ | .addi _ _ _ | .slti _ _ _ => false
  | .beq _ _ _ | .bne _ _ _ | .j _ | .jal _ => false

/-- The one instruction that writes memory (R22, R30). -/
def Instr.isSw : Instr → Bool
  | .sw _ _ _ => true
  | .add _ _ _ | .sub _ _ _ | .and _ _ _ | .or _ _ _ | .slt _ _ _ | .mult _ _ | .div _ _ => false
  | .mfhi _ | .mflo _ | .jr _ | .lw _ _ _ | .addi _ _ _ | .slti _ _ _ => false
  | .beq _ _ _ | .bne _ _ _ | .j _ | .jal _ => false

/-- The one instruction that can make `pc` misaligned (R16, R95). -/
def Instr.isJr : Instr → Bool
  | .jr _ => true
  | .add _ _ _ | .sub _ _ _ | .and _ _ _ | .or _ _ _ | .slt _ _ _ | .mult _ _ | .div _ _ => false
  | .mfhi _ | .mflo _ | .lw _ _ _ | .sw _ _ _ | .addi _ _ _ | .slti _ _ _ => false
  | .beq _ _ _ | .bne _ _ _ | .j _ | .jal _ => false

/-- The instructions R93 says can raise a fault. -/
def Instr.canFault : Instr → Bool
  | .add _ _ _ | .sub _ _ _ | .addi _ _ _ | .lw _ _ _ | .sw _ _ _ => true
  | .and _ _ _ | .or _ _ _ | .slt _ _ _ | .slti _ _ _ | .mult _ _ | .div _ _ => false
  | .mfhi _ | .mflo _ | .beq _ _ _ | .bne _ _ _ | .j _ | .jal _ | .jr _ => false

end Sys2Proof

namespace Sys2Proof.Machine

/-! ## Byte order (R31) -/

/-- Two states a program cannot tell apart: they agree on everything but `BYTE_ORDER`, and every
word-aligned address holds the same word in both (R31). -/
structure SameWords (s t : State) : Prop where
  /-- The registers. -/
  x : t.x = s.x
  /-- The program counter. -/
  pc : t.pc = s.pc
  /-- `HI`. -/
  hi : t.hi = s.hi
  /-- `LO`. -/
  lo : t.lo = s.lo
  /-- The fault record. -/
  faultRecord : t.faultRecord = s.faultRecord
  /-- The refused mark. -/
  refusedMark : t.refusedMark = s.refusedMark
  /-- The draws made. -/
  draws : t.draws = s.draws
  /-- The memory map. -/
  map : t.launch.map = s.launch.map
  /-- `ENTRY_PC`. -/
  entryPc : t.launch.entryPc = s.launch.entryPc
  /-- `HALT_PC`. -/
  haltPc : t.launch.haltPc = s.launch.haltPc
  /-- The words of memory. -/
  words : ∀ a, aligned a → t.word a = s.word a

/-- Two outcomes correspond: next states that a program cannot tell apart, the same fault, or the
same refusal. -/
def sameOutcome : Host.Outcome State Fault Refusal → Host.Outcome State Fault Refusal → Prop
  | .next s, .next t => SameWords s t
  | .fault f, .fault g => g = f
  | .refused r, .refused q => q = r
  | .next _, .fault _ | .next _, .refused _ | .fault _, .next _ => False
  | .fault _, .refused _ | .refused _, .next _ | .refused _, .fault _ => False

end Sys2Proof.Machine
end

