-- ==== Sys2Proof/Certificates/Slice0/Obligations.lean ====
section
/-! DEFINITION. The statements for the provers. Each formalises rules of spec/, which its docstring
names; a clause that rests on a choice of the model names the log entry. -/

section
open Sys2Proof Sys2Proof.Machine

/-! ## The eighteen instructions: encoding, result, frame, faults -/

/-- R70, whole: the encoding of `add`; the signed sum is written where it fits 32 bits; else
`IntegerOverflow`. -/
def Obligations.AddWritesSumOrOverflows : Prop :=
  ∀ rd rs rt : Reg,
    decode (0#6 ++ rs ++ rt ++ rd ++ 0#5 ++ 32#6) = .ok (.add rd rs rt) ∧
    ∀ s : State,
      (-2 ^ 31 ≤ (s.reg rs).toInt + (s.reg rt).toInt ∧
        (s.reg rs).toInt + (s.reg rt).toInt ≤ 2 ^ 31 - 1 →
        ∃ t, exec (.add rd rs rt) s = .next t ∧ WritesReg s t rd (s.reg rs + s.reg rt)) ∧
      ((s.reg rs).toInt + (s.reg rt).toInt < -2 ^ 31 ∨
        (s.reg rs).toInt + (s.reg rt).toInt > 2 ^ 31 - 1 →
        exec (.add rd rs rt) s = .fault (.integerOverflow s.pc))

/-- R71, whole: the encoding of `sub`; `x[rs] - x[rt]` where the signed difference fits 32 bits; else
`IntegerOverflow`. -/
def Obligations.SubWritesDifferenceOrOverflows : Prop :=
  ∀ rd rs rt : Reg,
    decode (0#6 ++ rs ++ rt ++ rd ++ 0#5 ++ 34#6) = .ok (.sub rd rs rt) ∧
    ∀ s : State,
      (-2 ^ 31 ≤ (s.reg rs).toInt - (s.reg rt).toInt ∧
        (s.reg rs).toInt - (s.reg rt).toInt ≤ 2 ^ 31 - 1 →
        ∃ t, exec (.sub rd rs rt) s = .next t ∧ WritesReg s t rd (s.reg rs - s.reg rt)) ∧
      ((s.reg rs).toInt - (s.reg rt).toInt < -2 ^ 31 ∨
        (s.reg rs).toInt - (s.reg rt).toInt > 2 ^ 31 - 1 →
        exec (.sub rd rs rt) s = .fault (.integerOverflow s.pc))

/-- R72, whole: the encoding of `and`, and its result in every state. -/
def Obligations.AndWritesBitwiseAnd : Prop :=
  ∀ rd rs rt : Reg,
    decode (0#6 ++ rs ++ rt ++ rd ++ 0#5 ++ 36#6) = .ok (.and rd rs rt) ∧
    ∀ s : State, ∃ t, exec (.and rd rs rt) s = .next t ∧ WritesReg s t rd (s.reg rs &&& s.reg rt)

/-- R73, whole: the encoding of `or`, and its result in every state. -/
def Obligations.OrWritesBitwiseOr : Prop :=
  ∀ rd rs rt : Reg,
    decode (0#6 ++ rs ++ rt ++ rd ++ 0#5 ++ 37#6) = .ok (.or rd rs rt) ∧
    ∀ s : State, ∃ t, exec (.or rd rs rt) s = .next t ∧ WritesReg s t rd (s.reg rs ||| s.reg rt)

/-- R74, whole: the encoding of `slt`, and the signed comparison in every state. -/
def Obligations.SltWritesSignedComparison : Prop :=
  ∀ rd rs rt : Reg,
    decode (0#6 ++ rs ++ rt ++ rd ++ 0#5 ++ 42#6) = .ok (.slt rd rs rt) ∧
    ∀ s : State, ∃ t, exec (.slt rd rs rt) s = .next t ∧
      WritesReg s t rd (if (s.reg rs).toInt < (s.reg rt).toInt then 1#32 else 0#32)

/-- R76, whole: the encoding of `mult`; `HI` and `LO` together hold the exact signed product. -/
def Obligations.MultWritesExactProduct : Prop :=
  ∀ rs rt : Reg,
    decode (0#6 ++ rs ++ rt ++ 0#5 ++ 0#5 ++ 24#6) = .ok (.mult rs rt) ∧
    ∀ s : State, ∃ t h l, exec (.mult rs rt) s = .next t ∧ WritesHiLo s t h l 0 ∧
      (h ++ l : BitVec 64).toInt = (s.reg rs).toInt * (s.reg rt).toInt

/-- R77, whole: the encoding of `div`; quotient rounded toward zero in `LO`, remainder in `HI`; for a
zero divisor and for -2^31 / -1 the instruction completes with some values in `HI` and `LO`. -/
def Obligations.DivWritesQuotientAndRemainder : Prop :=
  ∀ rs rt : Reg,
    decode (0#6 ++ rs ++ rt ++ 0#5 ++ 0#5 ++ 26#6) = .ok (.div rs rt) ∧
    ∀ s : State,
      ((s.reg rt).toInt ≠ 0 ∧ ¬ ((s.reg rs).toInt = -2 ^ 31 ∧ (s.reg rt).toInt = -1) →
        ∃ t h l, exec (.div rs rt) s = .next t ∧ WritesHiLo s t h l 0 ∧
          l.toInt = (s.reg rs).toInt.tdiv (s.reg rt).toInt ∧
          h.toInt = (s.reg rs).toInt - (s.reg rs).toInt.tdiv (s.reg rt).toInt * (s.reg rt).toInt) ∧
      ((s.reg rt).toInt = 0 ∨ ((s.reg rs).toInt = -2 ^ 31 ∧ (s.reg rt).toInt = -1) →
        ∃ t h l n, exec (.div rs rt) s = .next t ∧ WritesHiLo s t h l n)

/-- R77's remarks on the defined cases: `n = q·d + r`, `|r| < |d|`, and the remainder is 0 or has the
sign of the dividend. -/
def Obligations.DivRemainderHasDividendSign : Prop :=
  ∀ (rs rt : Reg) (s t : State), exec (.div rs rt) s = .next t →
    (s.reg rt).toInt ≠ 0 → ¬ ((s.reg rs).toInt = -2 ^ 31 ∧ (s.reg rt).toInt = -1) →
    (s.reg rs).toInt = t.lo.toInt * (s.reg rt).toInt + t.hi.toInt ∧
    t.hi.toInt.natAbs < (s.reg rt).toInt.natAbs ∧
    (t.hi.toInt = 0 ∨ (0 < t.hi.toInt ∧ 0 < (s.reg rs).toInt) ∨
      (t.hi.toInt < 0 ∧ (s.reg rs).toInt < 0))

/-- The model's choice (log 8): where R77 gives no result, `HI` takes the next draw, `LO` the one
after it, and the draw counter moves on by two, so that no later draw is one of them. -/
def Obligations.DivUndefinedTakesTwoFreshDraws : Prop :=
  ∀ (rs rt : Reg) (s : State),
    (s.reg rt).toInt = 0 ∨ ((s.reg rs).toInt = -2 ^ 31 ∧ (s.reg rt).toInt = -1) →
    ∃ t, exec (.div rs rt) s = .next t ∧
      WritesHiLo s t (Config.any32 s.draws) (Config.any32 (s.draws + 1)) 2

/-- R78, whole: the encoding of `mfhi`, and its effect in every state. -/
def Obligations.MfhiCopiesHi : Prop :=
  ∀ rd : Reg,
    decode (0#6 ++ 0#5 ++ 0#5 ++ rd ++ 0#5 ++ 16#6) = .ok (.mfhi rd) ∧
    ∀ s : State, ∃ t, exec (.mfhi rd) s = .next t ∧ WritesReg s t rd s.hi

/-- R79, whole: the encoding of `mflo`, and its effect in every state. -/
def Obligations.MfloCopiesLo : Prop :=
  ∀ rd : Reg,
    decode (0#6 ++ 0#5 ++ 0#5 ++ rd ++ 0#5 ++ 18#6) = .ok (.mflo rd) ∧
    ∀ s : State, ∃ t, exec (.mflo rd) s = .next t ∧ WritesReg s t rd s.lo

/-- R81, whole: the encoding of `lw`; a misaligned address, then an unpopulated one, fault; else the
word at the address is loaded, from the program too. -/
def Obligations.LwLoadsWordOrFaults : Prop :=
  ∀ (rt rs : Reg) (imm : Imm16),
    decode (36#6 ++ rs ++ rt ++ imm) = .ok (.lw rt rs imm) ∧
    ∀ s : State,
      ((s.baseDisp rs imm).toNat % 4 ≠ 0 →
        exec (.lw rt rs imm) s = .fault (.addressErrorLoad s.pc (s.baseDisp rs imm))) ∧
      ((s.baseDisp rs imm).toNat % 4 = 0 ∧ s.launch.memValid (s.baseDisp rs imm) = false →
        exec (.lw rt rs imm) s = .fault (.accessFault s.pc (s.baseDisp rs imm))) ∧
      ((s.baseDisp rs imm).toNat % 4 = 0 ∧ s.launch.memValid (s.baseDisp rs imm) = true →
        ∃ t, exec (.lw rt rs imm) s = .next t ∧ WritesReg s t rt (s.word (s.baseDisp rs imm)))

/-- R82, whole: the encoding of `sw`; a misaligned address, then an unpopulated one, fault; a store
into the program is refused; else the word is stored and every other byte is as it was. -/
def Obligations.SwStoresWordOrStops : Prop :=
  ∀ (rt rs : Reg) (imm : Imm16),
    decode (44#6 ++ rs ++ rt ++ imm) = .ok (.sw rt rs imm) ∧
    ∀ s : State,
      ((s.baseDisp rs imm).toNat % 4 ≠ 0 →
        exec (.sw rt rs imm) s = .fault (.addressErrorStore s.pc (s.baseDisp rs imm))) ∧
      ((s.baseDisp rs imm).toNat % 4 = 0 ∧ s.launch.memValid (s.baseDisp rs imm) = false →
        exec (.sw rt rs imm) s = .fault (.accessFault s.pc (s.baseDisp rs imm))) ∧
      (s.launch.inText (s.baseDisp rs imm) = true →
        exec (.sw rt rs imm) s = .refused (.storeToText s.pc (s.baseDisp rs imm))) ∧
      (s.launch.memValid (s.baseDisp rs imm) = true ∧ s.launch.inText (s.baseDisp rs imm) = false →
        ∃ t, exec (.sw rt rs imm) s = .next t ∧
          WritesWord s t (s.baseDisp rs imm) (s.reg rt))

/-- R83, whole: the encoding of `addi`; the signed sum with the sign-extended constant where it fits
32 bits; else `IntegerOverflow`. -/
def Obligations.AddiWritesSumOrOverflows : Prop :=
  ∀ (rt rs : Reg) (imm : Imm16),
    decode (8#6 ++ rs ++ rt ++ imm) = .ok (.addi rt rs imm) ∧
    ∀ s : State,
      (-2 ^ 31 ≤ (s.reg rs).toInt + imm.toInt ∧ (s.reg rs).toInt + imm.toInt ≤ 2 ^ 31 - 1 →
        ∃ t, exec (.addi rt rs imm) s = .next t ∧
          WritesReg s t rt (s.reg rs + imm.signExtend 32)) ∧
      ((s.reg rs).toInt + imm.toInt < -2 ^ 31 ∨ (s.reg rs).toInt + imm.toInt > 2 ^ 31 - 1 →
        exec (.addi rt rs imm) s = .fault (.integerOverflow s.pc))

/-- R84, whole: the encoding of `slti`, and the signed comparison with the constant in every state. -/
def Obligations.SltiWritesSignedComparison : Prop :=
  ∀ (rt rs : Reg) (imm : Imm16),
    decode (10#6 ++ rs ++ rt ++ imm) = .ok (.slti rt rs imm) ∧
    ∀ s : State, ∃ t, exec (.slti rt rs imm) s = .next t ∧
      WritesReg s t rt (if (s.reg rs).toInt < imm.toInt then 1#32 else 0#32)

/-- R87, whole: the encoding of `beq`; taken exactly when the registers are equal. -/
def Obligations.BeqBranchesWhenEqual : Prop :=
  ∀ (rs rt : Reg) (imm : Imm16),
    decode (4#6 ++ rs ++ rt ++ imm) = .ok (.beq rs rt imm) ∧
    ∀ s : State, ∃ t, exec (.beq rs rt imm) s = .next t ∧
      WritesPc s t
        (if s.reg rs = s.reg rt then s.pc + 4#32 + (imm.signExtend 32 <<< 2) else s.pc + 4#32)

/-- R88, whole: the encoding of `bne`; taken exactly when the registers differ. -/
def Obligations.BneBranchesWhenDifferent : Prop :=
  ∀ (rs rt : Reg) (imm : Imm16),
    decode (5#6 ++ rs ++ rt ++ imm) = .ok (.bne rs rt imm) ∧
    ∀ s : State, ∃ t, exec (.bne rs rt imm) s = .next t ∧
      WritesPc s t
        (if s.reg rs = s.reg rt then s.pc + 4#32 else s.pc + 4#32 + (imm.signExtend 32 <<< 2))

/-- R89, whole: the encoding of `j`; the 28 low bits of the next instruction's address are replaced. -/
def Obligations.JJumpsInRegion : Prop :=
  ∀ target : Target26,
    decode (2#6 ++ target) = .ok (.j target) ∧
    ∀ s : State, ∃ t, exec (.j target) s = .next t ∧
      WritesPc s t ((s.pc + 4#32).extractLsb' 28 4 ++ target ++ 0#2)

/-- R90, whole: the encoding of `jal`; `$31` takes the address of the next instruction, `pc` the
target, and nothing else changes. -/
def Obligations.JalLinksAndJumps : Prop :=
  ∀ target : Target26,
    decode (3#6 ++ target) = .ok (.jal target) ∧
    ∀ s : State, ∃ t, exec (.jal target) s = .next t ∧
      (∀ q, t.reg q = if q = 31#5 then s.pc + 4#32 else s.reg q) ∧
      t.pc = (s.pc + 4#32).extractLsb' 28 4 ++ target ++ 0#2 ∧ t.hi = s.hi ∧ t.lo = s.lo ∧
      (∀ a, Memory.readByte t.mem a = Memory.readByte s.mem a) ∧ t.draws = s.draws ∧
      SameBookkeeping s t

/-- R91, whole: the encoding of `jr`; all 32 bits of the register go to `pc`; where they are not a
multiple of 4 the `jr` completes and the next step raises `AddressErrorFetch`. -/
def Obligations.JrJumpsToRegister : Prop :=
  ∀ rs : Reg,
    decode (0#6 ++ rs ++ 0#5 ++ 0#5 ++ 0#5 ++ 8#6) = .ok (.jr rs) ∧
    ∀ s : State, ∃ t, exec (.jr rs) s = .next t ∧ WritesPc s t (s.reg rs) ∧
      (s.running → s.launch.wellFormed = true → ¬ aligned (s.reg rs) →
        step t = .fault (.addressErrorFetch (s.reg rs) (s.reg rs)))

/-! ## Operands -/

/-- R50 (and R49's reading of the same field): the immediate is read as a signed 16-bit number,
-2^15 to 2^15 - 1, and is not scaled. -/
def Obligations.ImmediateSignExtends : Prop :=
  ∀ imm : Imm16, (sext32 imm).toInt = imm.toInt ∧
    -2 ^ 15 ≤ (sext32 imm).toInt ∧ (sext32 imm).toInt ≤ 2 ^ 15 - 1

/-- R80's effective address: base plus signed byte offset, modulo 2^32. -/
def Obligations.EffectiveAddressWraps : Prop :=
  ∀ (s : State) (rs : Reg) (imm : Imm16),
    ((s.baseDisp rs imm).toNat : Int) = ((s.reg rs).toNat + imm.toInt) % 2 ^ 32

/-- R51, whole: a taken `beq` or `bne` goes to `npc` plus a signed distance in words, modulo 2^32; the
reach is -2^17 to 2^17 - 4 bytes. From R86: the target of a branch at an aligned `pc` is aligned. -/
def Obligations.BranchTargetCountsWordsFromNpc : Prop :=
  ∀ (s t : State) (rs rt : Reg) (imm : Imm16),
    (s.reg rs = s.reg rt ∧ exec (.beq rs rt imm) s = .next t) ∨
      (s.reg rs ≠ s.reg rt ∧ exec (.bne rs rt imm) s = .next t) →
    (t.pc.toNat : Int) = (s.pc.toNat + 4 + 4 * imm.toInt) % 2 ^ 32 ∧
    -2 ^ 17 ≤ 4 * imm.toInt ∧ 4 * imm.toInt ≤ 2 ^ 17 - 4 ∧ (aligned s.pc → aligned t.pc)

/-- R52, whole: `j` and `jal` keep bits 31:28 of `npc`, put the field in bits 27:2 and zero in bits 1:0. -/
def Obligations.JumpTargetKeepsRegion : Prop :=
  ∀ (s t : State) (target : Target26),
    exec (.j target) s = .next t ∨ exec (.jal target) s = .next t →
    t.pc.extractLsb' 28 4 = (s.pc + 4#32).extractLsb' 28 4 ∧
    t.pc.extractLsb' 2 26 = target ∧ t.pc.extractLsb' 0 2 = 0#2

/-- R62's conversions agree with R51 and R52: the field an assembler makes for a label takes the
machine to that label. -/
def Obligations.AssembledTargetsReachTheirLabels : Prop :=
  ∀ (s : State) (label : Word),
    (∀ imm, branchToLabel s.pc label = some imm → s.branchTarget imm = label) ∧
    (aligned label → label.extractLsb' 28 4 = (s.pc + 4#32).extractLsb' 28 4 →
      s.jumpTarget (jumpOperand label) = label)

/-! ## Decoding and encoding -/

/-- R64, whole: the decoder's table, row by row, on the fields of the word; a word that fits no row is
reserved. -/
def Obligations.DecodeFollowsTheTable : Prop :=
  ∀ w : Word,
    let op := w.extractLsb' 26 6
    let rs := w.extractLsb' 21 5
    let rt := w.extractLsb' 16 5
    let rd := w.extractLsb' 11 5
    let shamt := w.extractLsb' 6 5
    let funct := w.extractLsb' 0 6
    let imm := w.extractLsb' 0 16
    let target := w.extractLsb' 0 26
    (∀ i : Instr, decode w = .ok i ↔
      (op = 0#6 ∧ funct = 32#6 ∧ shamt = 0#5 ∧ i = .add rd rs rt) ∨
      (op = 0#6 ∧ funct = 34#6 ∧ shamt = 0#5 ∧ i = .sub rd rs rt) ∨
      (op = 0#6 ∧ funct = 36#6 ∧ shamt = 0#5 ∧ i = .and rd rs rt) ∨
      (op = 0#6 ∧ funct = 37#6 ∧ shamt = 0#5 ∧ i = .or rd rs rt) ∨
      (op = 0#6 ∧ funct = 42#6 ∧ shamt = 0#5 ∧ i = .slt rd rs rt) ∨
      (op = 0#6 ∧ funct = 24#6 ∧ rd = 0#5 ∧ shamt = 0#5 ∧ i = .mult rs rt) ∨
      (op = 0#6 ∧ funct = 26#6 ∧ rd = 0#5 ∧ shamt = 0#5 ∧ i = .div rs rt) ∨
      (op = 0#6 ∧ funct = 16#6 ∧ rs = 0#5 ∧ rt = 0#5 ∧ shamt = 0#5 ∧ i = .mfhi rd) ∨
      (op = 0#6 ∧ funct = 18#6 ∧ rs = 0#5 ∧ rt = 0#5 ∧ shamt = 0#5 ∧ i = .mflo rd) ∨
      (op = 0#6 ∧ funct = 8#6 ∧ rt = 0#5 ∧ rd = 0#5 ∧ shamt = 0#5 ∧ i = .jr rs) ∨
      (op = 2#6 ∧ i = .j target) ∨ (op = 3#6 ∧ i = .jal target) ∨
      (op = 4#6 ∧ i = .beq rs rt imm) ∨ (op = 5#6 ∧ i = .bne rs rt imm) ∨
      (op = 8#6 ∧ i = .addi rt rs imm) ∨ (op = 10#6 ∧ i = .slti rt rs imm) ∨
      (op = 36#6 ∧ i = .lw rt rs imm) ∨ (op = 44#6 ∧ i = .sw rt rs imm)) ∧
    ((∃ e, decode w = .error e) ↔ ∀ i, decode w ≠ .ok i)

/-- R68, whole: the three encoding formulas, as numbers. -/
def Obligations.EncodersComputeTheFormulas : Prop :=
  (∀ (rs rt rd shamt : BitVec 5) (funct : BitVec 6), (encodeR rs rt rd shamt funct).toNat =
    rs.toNat * 2 ^ 21 + rt.toNat * 2 ^ 16 + rd.toNat * 2 ^ 11 + shamt.toNat * 2 ^ 6 + funct.toNat) ∧
  (∀ (op : BitVec 6) (rs rt : Reg) (imm : Imm16), (encodeI op rs rt imm).toNat =
    op.toNat * 2 ^ 26 + rs.toNat * 2 ^ 21 + rt.toNat * 2 ^ 16 + imm.toNat) ∧
  (∀ (op : BitVec 6) (target : Target26), (encodeJ op target).toNat =
    op.toNat * 2 ^ 26 + target.toNat)

/-- R64, R68: decoding the word of any instruction gives the instruction back, at every value of
every operand. -/
def Obligations.DecodeInvertsEncode : Prop :=
  ∀ i : Instr, decode (encode i) = .ok i

/-- R64, R68: a word that decodes to an instruction is that instruction's word: every bit of it is
read or checked. -/
def Obligations.DecodedWordIsTheEncoding : Prop :=
  ∀ (w : Word) (i : Instr), decode w = .ok i → encode i = w

/-- Words written out from the encodings of R70 to R91 (the source's own examples S1, S3 to S8, S10,
S16, S17 and the vectors V4 to V9, V16, V18 of 95_test_vectors.md). -/
def Obligations.SampleWordsDecode : Prop :=
  decode 0x02324020#32 = .ok (.add 8#5 17#5 18#5) ∧ decode 0x02538822#32 = .ok (.sub 17#5 18#5 19#5) ∧
  decode 0x02538824#32 = .ok (.and 17#5 18#5 19#5) ∧ decode 0x02324025#32 = .ok (.or 8#5 17#5 18#5) ∧
  decode 0x0232402A#32 = .ok (.slt 8#5 17#5 18#5) ∧ decode 0x02320018#32 = .ok (.mult 17#5 18#5) ∧
  decode 0x0232001A#32 = .ok (.div 17#5 18#5) ∧ decode 0x00004010#32 = .ok (.mfhi 8#5) ∧
  decode 0x00004812#32 = .ok (.mflo 9#5) ∧ decode 0x03E00008#32 = .ok (.jr 31#5) ∧
  decode 0x92680020#32 = .ok (.lw 8#5 19#5 32#16) ∧ decode 0xB2680020#32 = .ok (.sw 8#5 19#5 32#16) ∧
  decode 0x22720020#32 = .ok (.addi 18#5 19#5 32#16) ∧
  decode 0x2A480008#32 = .ok (.slti 8#5 18#5 8#16) ∧
  decode 0x12300019#32 = .ok (.beq 17#5 16#5 25#16) ∧
  decode 0x15000003#32 = .ok (.bne 8#5 0#5 3#16) ∧ decode 0x08004E20#32 = .ok (.j 20000#26) ∧
  decode 0x0C004E20#32 = .ok (.jal 20000#26)

/-- A listed function code with a non-zero unused field is reserved (after R65), for each of the ten
R-format instructions. That the decoder gives `unusedField` as the reason is the model's choice
(DESIGN CHOICE, log 22): R65 and R66 know one kind of reserved word. -/
def Obligations.NonzeroUnusedFieldsAreReserved : Prop :=
  ∀ w : Word, opField w = 0#6 →
    (functField w ∈ [32#6, 34#6, 36#6, 37#6, 42#6] → shamtField w ≠ 0#5 →
      decode w = .error .unusedField) ∧
    (functField w ∈ [24#6, 26#6] → (rdField w ≠ 0#5 ∨ shamtField w ≠ 0#5) →
      decode w = .error .unusedField) ∧
    (functField w ∈ [16#6, 18#6] → (rsField w ≠ 0#5 ∨ rtField w ≠ 0#5 ∨ shamtField w ≠ 0#5) →
      decode w = .error .unusedField) ∧
    (functField w = 8#6 → (rtField w ≠ 0#5 ∨ rdField w ≠ 0#5 ∨ shamtField w ≠ 0#5) →
      decode w = .error .unusedField)

/-- R66, R94: a fetched word that encodes none of the eighteen instructions raises
`ReservedInstruction` with that word. -/
def Obligations.ReservedWordFaults : Prop :=
  ∀ s : State, s.running → s.pc ≠ s.launch.haltPc → s.launch.inText s.pc = true →
    (∀ i : Instr, encode i ≠ s.word s.pc) →
    step s = .fault (.reservedInstruction s.pc (s.word s.pc))

/-- The reserved words that 95_test_vectors.md lists (V21 to V31), the all-zero word among them. -/
def Obligations.ListedReservedWordsAreRefused : Prop :=
  ∀ w ∈ [0x00000000#32, 0x02324060#32, 0x02320818#32, 0x00204010#32, 0x03E10008#32, 0x02324021#32,
      0x00084080#32, 0x3C080001#32, 0x35080001#32, 0x8E680020#32, 0xAE680020#32, 0x0000000C#32,
      0x0000000D#32, 0xFFFFFFFF#32],
    ∃ e : Reserved, decode w = .error e

/-! ## The step -/

/-- A step runs the instruction that the word at `pc` decodes to, and does nothing else. -/
def Obligations.StepRunsDecodedInstruction : Prop :=
  ∀ (s : State) (i : Instr), s.running → s.pc ≠ s.launch.haltPc → s.launch.inText s.pc = true →
    decode (s.word s.pc) = .ok i → step s = exec i s

/-- R18, whole, in the order of its steps, from a state that carries no record. At `HALT_PC` the run is
final and stays where it is; that `step` then answers with the same state is the model's (log 1) and
not claimed here. -/
def Obligations.StepFollowsTheCycle : Prop :=
  ∀ s : State, s.running →
    (s.pc = s.launch.haltPc → s.final ∧ ∀ k t, runsTo k s t → t = s) ∧
    (s.pc ≠ s.launch.haltPc → ¬ aligned s.pc → step s = .fault (.addressErrorFetch s.pc s.pc)) ∧
    (s.pc ≠ s.launch.haltPc → aligned s.pc → s.launch.memValid s.pc = false →
      step s = .fault (.accessFault s.pc s.pc)) ∧
    (s.pc ≠ s.launch.haltPc → s.launch.memValid s.pc = true → s.launch.inText s.pc = false →
      step s = .refused (.fetchOutsideText s.pc)) ∧
    (s.pc ≠ s.launch.haltPc → s.launch.inText s.pc = true →
      (∀ e, decode (s.word s.pc) = .error e →
        step s = .fault (.reservedInstruction s.pc (s.word s.pc))) ∧
      (∀ i, decode (s.word s.pc) = .ok i → step s = exec i s))

/-- The model's loading of one word (log 11): after it, the very next step runs that word. -/
def Obligations.LoadedWordRunsNext : Prop :=
  ∀ (s : State) (w : Nat) (i : Instr), w < 2 ^ 32 → decode (BitVec.ofNat 32 w) = .ok i →
    step (s.withFetchWord 32 w) = exec i (s.withFetchWord 32 w)

/-! ## Launch and reset -/

/-- R27, whole: the values at the start of a run, for every launch. -/
def Obligations.LaunchSetsEveryValue : Prop :=
  ∀ (l : Launch) (init : Init),
    (State.atLaunch l init).reg 0#5 = 0#32 ∧
    (∀ (k : Nat) (h : k < 31),
      (State.atLaunch l init).reg (BitVec.ofNat 5 (k + 1)) = init.x[k]) ∧
    (State.atLaunch l init).pc = l.entryPc ∧ (State.atLaunch l init).hi = init.hi ∧
    (State.atLaunch l init).lo = init.lo ∧
    (∀ a, Memory.readByte (State.atLaunch l init).mem a = Memory.readByte init.mem a) ∧
    (State.atLaunch l init).faultRecord = none ∧ (State.atLaunch l init).refusedMark = none ∧
    (State.atLaunch l init).launch = l

/-- The model's reset (logs 4, 5, 6): it is a launch state, it meets the invariant, no program is
loaded, and its first step is the refusal of R41. -/
def Obligations.ResetIsAWellFormedLaunch : Prop :=
  State.reset = State.atLaunch Launch.default Init.zero ∧ State.reset.wf ∧ State.reset.running ∧
    (∀ q, State.reset.reg q = 0#32) ∧
    step State.reset = .refused (.fetchOutsideText 0x00400000#32)

/-! ## Invariants and runs -/

/-- Every step keeps memory in its canonical form and inside `MEM_VALID`, and the launch as R110
asks (R23, R34, R36, R110; the canonical form is the model's, log 29). -/
def Obligations.StepKeepsWf : Prop :=
  ∀ s t : State, s.wf → step s = .next t → t.wf

/-- R41, whole: a store into the program is refused, a fetch from outside it is refused, and so the
launch parameters and every word of the program are the same after any number of steps: every word
ever fetched is a word of the program as loaded. -/
def Obligations.ProgramIsFixedForTheRun : Prop :=
  (∀ (s : State) (rt rs : Reg) (imm : Imm16), s.launch.inText (s.baseDisp rs imm) = true →
    exec (.sw rt rs imm) s = .refused (.storeToText s.pc (s.baseDisp rs imm))) ∧
  (∀ s : State, s.running → s.pc ≠ s.launch.haltPc → s.launch.memValid s.pc = true →
    s.launch.inText s.pc = false → step s = .refused (.fetchOutsideText s.pc)) ∧
  (∀ (k : Nat) (s t : State), runsTo k s t →
    t.launch = s.launch ∧ (∀ a, s.launch.inText a = true → t.word a = s.word a) ∧
    ∀ w, t.fetch = .next w → s.launch.inText t.pc = true ∧ w = s.word t.pc)

/-- R95: a misaligned `pc` faults at the fetch, and it can arise only after a `jr` whose register
held such a value. -/
def Obligations.OnlyJrMakesPcMisaligned : Prop :=
  (∀ s : State, s.running → s.pc ≠ s.launch.haltPc → ¬ aligned s.pc →
    step s = .fault (.addressErrorFetch s.pc s.pc)) ∧
  (∀ s t : State, aligned s.pc → step s = .next t → ¬ aligned t.pc →
    ∃ rs, decode (s.word s.pc) = .ok (.jr rs) ∧ t.pc = s.reg rs)

/-- R31, whole: two states that differ only in `BYTE_ORDER` and hold the same words take corresponding
steps; no step changes `BYTE_ORDER`; the four bytes of a stored word lie as R31 lays them out. -/
def Obligations.ByteOrderIsUnobservable : Prop :=
  (∀ s t : State, SameWords s t → sameOutcome (step s) (step t)) ∧
  (∀ s t : State, step s = .next t → t.launch.byteOrder = s.launch.byteOrder) ∧
  (∀ (s : State) (a v : Word), aligned a →
    let byte := fun k : Nat => Memory.readByte (s.setWord a v).mem (a.toNat + k)
    (s.launch.byteOrder = .big → byte 0 = v.extractLsb' 24 8 ∧ byte 1 = v.extractLsb' 16 8 ∧
      byte 2 = v.extractLsb' 8 8 ∧ byte 3 = v.extractLsb' 0 8) ∧
    (s.launch.byteOrder = .little → byte 0 = v.extractLsb' 0 8 ∧ byte 1 = v.extractLsb' 8 8 ∧
      byte 2 = v.extractLsb' 16 8 ∧ byte 3 = v.extractLsb' 24 8))

/-! ## Faults and refusals -/

/-- R93, whole: the six codes, and exactly which faults a step raises, when, with which `info` and
`pc`. No other instruction appears, so no other raises anything. -/
def Obligations.StepFaultsExactlyWhenListed : Prop :=
  (∀ pc a : Word, (Fault.addressErrorFetch pc a).code = 1 ∧ (Fault.accessFault pc a).code = 2 ∧
    (Fault.reservedInstruction pc a).code = 3 ∧ (Fault.integerOverflow pc).code = 4 ∧
    (Fault.addressErrorLoad pc a).code = 5 ∧ (Fault.addressErrorStore pc a).code = 6) ∧
  ∀ (s : State) (f : Fault), s.running → s.pc ≠ s.launch.haltPc →
    (step s = .fault f ↔
      (¬ aligned s.pc ∧ f = .addressErrorFetch s.pc s.pc) ∨
      (aligned s.pc ∧ s.launch.memValid s.pc = false ∧ f = .accessFault s.pc s.pc) ∨
      (s.launch.inText s.pc = true ∧
        (((∃ e, decode (s.word s.pc) = .error e) ∧
            f = .reservedInstruction s.pc (s.word s.pc)) ∨
          (∃ rd rs rt, decode (s.word s.pc) = .ok (.add rd rs rt) ∧
            ¬ fitsSigned ((s.reg rs).toInt + (s.reg rt).toInt) ∧ f = .integerOverflow s.pc) ∨
          (∃ rd rs rt, decode (s.word s.pc) = .ok (.sub rd rs rt) ∧
            ¬ fitsSigned ((s.reg rs).toInt - (s.reg rt).toInt) ∧ f = .integerOverflow s.pc) ∨
          (∃ rt rs imm, decode (s.word s.pc) = .ok (.addi rt rs imm) ∧
            ¬ fitsSigned ((s.reg rs).toInt + imm.toInt) ∧ f = .integerOverflow s.pc) ∨
          (∃ rt rs imm, decode (s.word s.pc) = .ok (.lw rt rs imm) ∧
            ((¬ aligned (s.baseDisp rs imm) ∧ f = .addressErrorLoad s.pc (s.baseDisp rs imm)) ∨
              (aligned (s.baseDisp rs imm) ∧ s.launch.memValid (s.baseDisp rs imm) = false ∧
                f = .accessFault s.pc (s.baseDisp rs imm)))) ∨
          (∃ rt rs imm, decode (s.word s.pc) = .ok (.sw rt rs imm) ∧
            ((¬ aligned (s.baseDisp rs imm) ∧ f = .addressErrorStore s.pc (s.baseDisp rs imm)) ∨
              (aligned (s.baseDisp rs imm) ∧ s.launch.memValid (s.baseDisp rs imm) = false ∧
                f = .accessFault s.pc (s.baseDisp rs imm)))))))

/-- R93's last sentence: the instructions that raise nothing complete in every state. -/
def Obligations.OtherInstructionsNeverFault : Prop :=
  ∀ (i : Instr) (s : State), i.canFault = false → ∃ t, exec i s = .next t

/-- R100, whole: a step is refused exactly for a fetch outside the program and for a store into it; the
run is then marked refused, stays so for ever, takes no further step and is not final. -/
def Obligations.RefusedExactlyWhenListedAndForEver : Prop :=
  ∀ (s : State) (r : Refusal), s.running →
    (s.pc ≠ s.launch.haltPc → (step s = .refused r ↔
      (s.launch.memValid s.pc = true ∧ s.launch.inText s.pc = false ∧ r = .fetchOutsideText s.pc) ∨
      (s.launch.inText s.pc = true ∧
        ∃ rt rs imm, decode (s.word s.pc) = .ok (.sw rt rs imm) ∧
          s.launch.inText (s.baseDisp rs imm) = true ∧
          r = .storeToText s.pc (s.baseDisp rs imm)))) ∧
    (step s = .refused r →
      s.settle = { s with refusedMark := some r } ∧ ¬ s.settle.final ∧
      ∀ k, State.settleMany k s.settle = s.settle ∧ ∀ t, ¬ runsTo (k + 1) s.settle t)

/-- R99, R25: after a fault the run's state is the one before the step with the fault recorded; it
stays so for ever, takes no further step and is not final. -/
def Obligations.FaultEndsTheRun : Prop :=
  ∀ (s : State) (f : Fault), s.running → step s = .fault f →
    s.settle = { s with faultRecord := some f } ∧ f.pc = s.pc ∧ ¬ s.settle.final ∧
    ∀ k, State.settleMany k s.settle = s.settle ∧ ∀ t, ¬ runsTo (k + 1) s.settle t

/-- R113 as the model takes it (log 1): a final state is where the run stays, and a state that is not
final and carries no record fetches. -/
def Obligations.FinalStateStays : Prop :=
  ∀ s : State,
    (s.final → ∀ k t, runsTo k s t ↔ t = s) ∧
    (s.running → ¬ s.final → step s = andThen s.fetch fun w =>
      match decode w with
      | .ok i => exec i s
      | .error _ => .fault (.reservedInstruction s.pc w))

/-! ## What each kind of state is changed by (R22) -/

/-- R14, whole: `x[0]` reads 0 in every state and a write to it changes nothing; a register from 1 to
31 reads the last value written; an instruction changes no general register but the one that R22's
table says it writes. -/
def Obligations.RegistersHoldTheirLastWrite : Prop :=
  ∀ s : State, s.reg 0#5 = 0#32 ∧ (∀ v, s.setReg 0#5 v = s) ∧
    (∀ r v, r ≠ 0#5 → (s.setReg r v).reg r = v) ∧
    ∀ (i : Instr) (t : State), exec i s = .next t →
      ∀ q, i.writes ≠ some q ∨ q = 0#5 → t.reg q = s.reg q

/-- R22: no instruction reads a general register that the table does not say it reads: changing one
changes nothing but that register in the outcome, and not even that where it is the destination. -/
def Obligations.InstructionsReadOnlyTheirSources : Prop :=
  ∀ (i : Instr) (s : State) (r : Reg) (v : Word), r ∉ i.reads →
    (∀ t, exec i s = .next t →
      (i.writes = some r → exec i (s.setReg r v) = .next t) ∧
      (i.writes ≠ some r → exec i (s.setReg r v) = .next (t.setReg r v))) ∧
    (∀ f, exec i s = .fault f → exec i (s.setReg r v) = .fault f) ∧
    (∀ q, exec i s = .refused q → exec i (s.setReg r v) = .refused q)

/-- R19, whole: `HI` and `LO` are written only by `mult` and `div` and read only by `mfhi` and `mflo`:
any other instruction does the same whatever they hold, and leaves them so. -/
def Obligations.HiLoBelongToFourInstructions : Prop :=
  ∀ (i : Instr) (s : State),
    (∀ t, exec i s = .next t → i.isMultDiv = false → t.hi = s.hi ∧ t.lo = s.lo) ∧
    ∀ h l : Word, i.isMoveFromHiLo = false →
      (∀ t, exec i s = .next t →
        (i.isMultDiv = true → exec i (s.setHiLo h l) = .next t) ∧
        (i.isMultDiv = false → exec i (s.setHiLo h l) = .next (t.setHiLo h l))) ∧
      (∀ f, exec i s = .fault f → exec i (s.setHiLo h l) = .fault f) ∧
      (∀ q, exec i s = .refused q → exec i (s.setHiLo h l) = .refused q)

/-- R23, R30: no instruction but `sw` changes memory. -/
def Obligations.OnlySwChangesMemory : Prop :=
  ∀ (i : Instr) (s t : State), exec i s = .next t → i.isSw = false → t.mem = s.mem

/-- R5, R25: no instruction and no step changes the launch parameters, the fault record or the
refused mark. -/
def Obligations.StepsKeepLaunchAndBookkeeping : Prop :=
  ∀ s t : State, ((∃ i, exec i s = .next t) ∨ step s = .next t) → SameBookkeeping s t

/-- Part 1 of 93_implementation_defined.md: the only draws are those of R77. -/
def Obligations.OnlyUndefinedDivisionsDraw : Prop :=
  ∀ (i : Instr) (s t : State), exec i s = .next t → t.draws ≠ s.draws →
    ∃ rs rt, i = .div rs rt ∧ t.draws = s.draws + 2 ∧
      ((s.reg rt).toInt = 0 ∨ ((s.reg rs).toInt = -2 ^ 31 ∧ (s.reg rt).toInt = -1))

/-- R34: the checks of a store in their order, and that the stored word is what the next read of its
address gives, while every other word is unchanged. -/
def Obligations.StoredWordIsReadBack : Prop :=
  ∀ (s : State) (a v : Word),
    (¬ aligned a → s.storeWord a v = .fault (.addressErrorStore s.pc a)) ∧
    (aligned a → s.launch.memValid a = false → s.storeWord a v = .fault (.accessFault s.pc a)) ∧
    (s.launch.inText a = true → s.storeWord a v = .refused (.storeToText s.pc a)) ∧
    (s.launch.memValid a = true → s.launch.inText a = false →
      ∃ t, s.storeWord a v = .next t ∧ t.loadWord a = .next v ∧ t.word a = v ∧
        ∀ b, aligned b → b ≠ a → t.word b = s.word b)

/-! ## Two instructions in a row -/

/-- R39: a load directly after a store to the same address returns the stored value. -/
def Obligations.LoadSeesTheLatestStore : Prop :=
  ∀ (rt rt' rs : Reg) (imm : Imm16) (s t : State), exec (.sw rt rs imm) s = .next t → rt' ≠ 0#5 →
    ∃ u, exec (.lw rt' rs imm) t = .next u ∧ u.reg rt' = s.reg rt

/-- R92: `jal` leaves the return address in `$31`, and `jr $31` goes back to it, from any state that
still holds it. -/
def Obligations.JrReturnsFromJal : Prop :=
  ∀ (target : Target26) (s t u : State), exec (.jal target) s = .next t → u.reg 31#5 = t.reg 31#5 →
    t.reg 31#5 = s.pc + 4#32 ∧ ∃ v, exec (.jr 31#5) u = .next v ∧ v.pc = s.pc + 4#32

/-- R75, R116: `mflo` and `mfhi` directly after `mult` give the two halves of its product. -/
def Obligations.ProductIsReadDirectlyAfterMult : Prop :=
  ∀ (rs rt rl rh : Reg) (s : State), rl ≠ 0#5 → rh ≠ 0#5 → rl ≠ rh →
    ∃ t u v, exec (.mult rs rt) s = .next t ∧ exec (.mflo rl) t = .next u ∧
      exec (.mfhi rh) u = .next v ∧
      (v.reg rh ++ v.reg rl : BitVec 64).toInt = (s.reg rs).toInt * (s.reg rt).toInt

end
end

