-- ==== Sys2Proof/Laws/State.lean ====
section
/-! SUPPORT. One lemma per field per update of `State`, and reading a register after each update. -/

namespace Sys2Proof.Machine

/-! ## `State.setReg` -/

@[simp] theorem State.setReg_pc (s : State) (r : Reg) (v : Word) : (s.setReg r v).pc = s.pc := rfl
@[simp] theorem State.setReg_hi (s : State) (r : Reg) (v : Word) : (s.setReg r v).hi = s.hi := rfl
@[simp] theorem State.setReg_lo (s : State) (r : Reg) (v : Word) : (s.setReg r v).lo = s.lo := rfl
@[simp] theorem State.setReg_mem (s : State) (r : Reg) (v : Word) : (s.setReg r v).mem = s.mem := rfl
@[simp] theorem State.setReg_faultRecord (s : State) (r : Reg) (v : Word) : (s.setReg r v).faultRecord = s.faultRecord := rfl
@[simp] theorem State.setReg_refusedMark (s : State) (r : Reg) (v : Word) : (s.setReg r v).refusedMark = s.refusedMark := rfl
@[simp] theorem State.setReg_launch (s : State) (r : Reg) (v : Word) : (s.setReg r v).launch = s.launch := rfl
@[simp] theorem State.setReg_draws (s : State) (r : Reg) (v : Word) : (s.setReg r v).draws = s.draws := rfl

/-! ## `State.setPc` -/

@[simp] theorem State.setPc_x (s : State) (t : Word) : (s.setPc t).x = s.x := rfl
@[simp] theorem State.setPc_hi (s : State) (t : Word) : (s.setPc t).hi = s.hi := rfl
@[simp] theorem State.setPc_lo (s : State) (t : Word) : (s.setPc t).lo = s.lo := rfl
@[simp] theorem State.setPc_mem (s : State) (t : Word) : (s.setPc t).mem = s.mem := rfl
@[simp] theorem State.setPc_faultRecord (s : State) (t : Word) : (s.setPc t).faultRecord = s.faultRecord := rfl
@[simp] theorem State.setPc_refusedMark (s : State) (t : Word) : (s.setPc t).refusedMark = s.refusedMark := rfl
@[simp] theorem State.setPc_launch (s : State) (t : Word) : (s.setPc t).launch = s.launch := rfl
@[simp] theorem State.setPc_draws (s : State) (t : Word) : (s.setPc t).draws = s.draws := rfl
@[simp] theorem State.setPc_pc (s : State) (t : Word) : (s.setPc t).pc = t := rfl
@[simp] theorem State.setPc_reg (s : State) (t : Word) (q : Reg) : (s.setPc t).reg q = s.reg q := rfl

/-! ## `State.advance` -/

@[simp] theorem State.advance_x (s : State) : (s.advance).x = s.x := rfl
@[simp] theorem State.advance_hi (s : State) : (s.advance).hi = s.hi := rfl
@[simp] theorem State.advance_lo (s : State) : (s.advance).lo = s.lo := rfl
@[simp] theorem State.advance_mem (s : State) : (s.advance).mem = s.mem := rfl
@[simp] theorem State.advance_faultRecord (s : State) : (s.advance).faultRecord = s.faultRecord := rfl
@[simp] theorem State.advance_refusedMark (s : State) : (s.advance).refusedMark = s.refusedMark := rfl
@[simp] theorem State.advance_launch (s : State) : (s.advance).launch = s.launch := rfl
@[simp] theorem State.advance_draws (s : State) : (s.advance).draws = s.draws := rfl
@[simp] theorem State.advance_pc (s : State) : (s.advance).pc = s.pc + 4#32 := rfl
@[simp] theorem State.advance_reg (s : State) (q : Reg) : (s.advance).reg q = s.reg q := rfl

/-! ## `State.setHiLo` -/

@[simp] theorem State.setHiLo_x (s : State) (h l : Word) : (s.setHiLo h l).x = s.x := rfl
@[simp] theorem State.setHiLo_pc (s : State) (h l : Word) : (s.setHiLo h l).pc = s.pc := rfl
@[simp] theorem State.setHiLo_mem (s : State) (h l : Word) : (s.setHiLo h l).mem = s.mem := rfl
@[simp] theorem State.setHiLo_faultRecord (s : State) (h l : Word) : (s.setHiLo h l).faultRecord = s.faultRecord := rfl
@[simp] theorem State.setHiLo_refusedMark (s : State) (h l : Word) : (s.setHiLo h l).refusedMark = s.refusedMark := rfl
@[simp] theorem State.setHiLo_launch (s : State) (h l : Word) : (s.setHiLo h l).launch = s.launch := rfl
@[simp] theorem State.setHiLo_draws (s : State) (h l : Word) : (s.setHiLo h l).draws = s.draws := rfl
@[simp] theorem State.setHiLo_hi (s : State) (h l : Word) : (s.setHiLo h l).hi = h := rfl
@[simp] theorem State.setHiLo_lo (s : State) (h l : Word) : (s.setHiLo h l).lo = l := rfl
@[simp] theorem State.setHiLo_reg (s : State) (h l : Word) (q : Reg) : (s.setHiLo h l).reg q = s.reg q := rfl

/-! ## `State.drawHiLo` -/

@[simp] theorem State.drawHiLo_x (s : State) : (s.drawHiLo).x = s.x := rfl
@[simp] theorem State.drawHiLo_pc (s : State) : (s.drawHiLo).pc = s.pc := rfl
@[simp] theorem State.drawHiLo_mem (s : State) : (s.drawHiLo).mem = s.mem := rfl
@[simp] theorem State.drawHiLo_faultRecord (s : State) : (s.drawHiLo).faultRecord = s.faultRecord := rfl
@[simp] theorem State.drawHiLo_refusedMark (s : State) : (s.drawHiLo).refusedMark = s.refusedMark := rfl
@[simp] theorem State.drawHiLo_launch (s : State) : (s.drawHiLo).launch = s.launch := rfl
@[simp] theorem State.drawHiLo_hi (s : State) : (s.drawHiLo).hi = Config.any32 s.draws := rfl
@[simp] theorem State.drawHiLo_lo (s : State) : (s.drawHiLo).lo = Config.any32 (s.draws + 1) := rfl
@[simp] theorem State.drawHiLo_draws (s : State) : (s.drawHiLo).draws = s.draws + 2 := rfl
@[simp] theorem State.drawHiLo_reg (s : State) (q : Reg) : (s.drawHiLo).reg q = s.reg q := rfl

/-! ## `State.setWord` -/

@[simp] theorem State.setWord_x (s : State) (a v : Word) : (s.setWord a v).x = s.x := rfl
@[simp] theorem State.setWord_pc (s : State) (a v : Word) : (s.setWord a v).pc = s.pc := rfl
@[simp] theorem State.setWord_hi (s : State) (a v : Word) : (s.setWord a v).hi = s.hi := rfl
@[simp] theorem State.setWord_lo (s : State) (a v : Word) : (s.setWord a v).lo = s.lo := rfl
@[simp] theorem State.setWord_faultRecord (s : State) (a v : Word) : (s.setWord a v).faultRecord = s.faultRecord := rfl
@[simp] theorem State.setWord_refusedMark (s : State) (a v : Word) : (s.setWord a v).refusedMark = s.refusedMark := rfl
@[simp] theorem State.setWord_launch (s : State) (a v : Word) : (s.setWord a v).launch = s.launch := rfl
@[simp] theorem State.setWord_draws (s : State) (a v : Word) : (s.setWord a v).draws = s.draws := rfl
@[simp] theorem State.setWord_mem (s : State) (a v : Word) : (s.setWord a v).mem = Memory.writeWord s.launch.byteOrder s.mem a v := rfl
@[simp] theorem State.setWord_reg (s : State) (a v : Word) (q : Reg) : (s.setWord a v).reg q = s.reg q := rfl

/-! ## Registers -/

@[simp] theorem State.npc_eq (s : State) : s.npc = s.pc + 4#32 := rfl

@[simp] theorem State.reg_zero (s : State) : s.reg 0#5 = 0#32 := rfl

@[simp] theorem State.setReg_zero (s : State) (v : Word) : s.setReg 0#5 v = s := rfl

/-- Everything a read after a write of a register can give (R14). -/
theorem State.reg_setReg (s : State) (r q : Reg) (v : Word) :
    (s.setReg r v).reg q = if q = 0#5 then 0#32 else if q = r then v else s.reg q := by
  unfold State.reg State.setReg
  by_cases hq : q = 0#5
  · simp [hq]
  by_cases hr : r = 0#5
  · have : q ≠ r := fun h => hq (h.trans hr)
    simp [hq, hr]
  · by_cases h : q = r
    · subst h
      simp [hq]
    · have hne : r.toNat - 1 ≠ q.toNat - 1 := by
        intro e
        apply h
        apply BitVec.eq_of_toNat_eq
        have h1 : q.toNat ≠ 0 := fun e => hq (BitVec.eq_of_toNat_eq e)
        have h2 : r.toNat ≠ 0 := fun e => hr (BitVec.eq_of_toNat_eq e)
        omega
      simp [hq, hr, h, Vector.getElem_set_ne, hne]

theorem State.reg_setReg_ne (s : State) {r q : Reg} (v : Word) (h : q ≠ r) :
    (s.setReg r v).reg q = s.reg q := by
  rw [State.reg_setReg]
  by_cases hq : q = 0#5
  · subst hq
    rfl
  · simp [hq, h]

end Sys2Proof.Machine
end

