-- ==== Sys2Proof/Laws/Memory.lean ====
section
/-! SUPPORT. What each memory operation does: a read after a write, the bytes a write leaves alone,
and that every write keeps the canonical form. -/

namespace Sys2Proof.Machine

/-! ## One byte -/

theorem Memory.readByte_erase_ne (m : Memory) {a b : Nat} (h : b ≠ a) :
    Memory.readByte (Memory.erase m a) b = Memory.readByte m b := by
  induction m with
  | nil => rfl
  | cons c rest ih =>
    unfold Memory.erase at ih ⊢
    by_cases hc : c.1 = a
    · have hb : ¬ c.1 = b := fun e => h (e.symm.trans hc)
      simp [hc, Memory.readByte, ih, Ne.symm h]
    · simp [hc, Memory.readByte, ih]

theorem Memory.readByte_erase_eq (m : Memory) (a : Nat) :
    Memory.readByte (Memory.erase m a) a = unlistedByte := by
  induction m with
  | nil => rfl
  | cons c rest ih =>
    unfold Memory.erase at ih ⊢
    by_cases hc : c.1 = a <;> simp [hc, Memory.readByte, ih]

theorem Memory.readByte_insertCell (m : Memory) (c : Host.Cell) (b : Nat)
    (h : ∀ d ∈ m, d.1 ≠ c.1) :
    Memory.readByte (Memory.insertCell m c) b = if c.1 = b then c.2 else Memory.readByte m b := by
  induction m with
  | nil => rfl
  | cons d rest ih =>
    have hd : d.1 ≠ c.1 := h d (by simp)
    have hrest := ih (fun e he => h e (by simp [he]))
    unfold Memory.insertCell
    by_cases hlt : c.1 < d.1
    · simp [hlt, Memory.readByte]
    · simp only [hlt, if_false, Memory.readByte, hrest]
      by_cases hdb : d.1 = b
      · have : ¬ c.1 = b := fun e => hd (hdb.trans e.symm)
        simp [hdb, this]
      · simp [hdb]

theorem Memory.ne_of_mem_erase {m : Memory} {a : Nat} {d : Host.Cell}
    (h : d ∈ Memory.erase m a) : d.1 ≠ a := by
  unfold Memory.erase at h
  simpa using (List.mem_filter.mp h).2

/-- A byte reads as what was last written to it, and a write leaves every other byte alone. -/
theorem Memory.readByte_writeByte (m : Memory) (a b : Nat) (v : Byte) :
    Memory.readByte (Memory.writeByte m a v) b = if b = a then v else Memory.readByte m b := by
  unfold Memory.writeByte
  by_cases hv : v = unlistedByte
  · by_cases hb : b = a
    · simp [hv, hb, Memory.readByte_erase_eq]
    · simp [hv, hb, Memory.readByte_erase_ne]
  · rw [if_neg hv, Memory.readByte_insertCell _ (a, v) b (fun d hd => Memory.ne_of_mem_erase hd)]
    by_cases hb : b = a
    · simp [hb]
    · have : ¬ a = b := fun e => hb e.symm
      simp [hb, this, Memory.readByte_erase_ne]

theorem Memory.mem_insertCell {m : Memory} {c d : Host.Cell} :
    d ∈ Memory.insertCell m c ↔ d = c ∨ d ∈ m := by
  induction m with
  | nil => simp [Memory.insertCell]
  | cons e rest ih =>
    unfold Memory.insertCell
    by_cases h : c.1 < e.1
    · simp [h]
    · simp only [h, if_false, List.mem_cons, ih]
      tauto

/-- What a write can list: the written cell, if its value is listed at all, and cells already there. -/
theorem Memory.mem_writeByte {m : Memory} {a : Nat} {v : Byte} {d : Host.Cell}
    (h : d ∈ Memory.writeByte m a v) : (d = (a, v) ∧ v ≠ unlistedByte) ∨ d ∈ m := by
  unfold Memory.writeByte at h
  by_cases hv : v = unlistedByte
  · rw [if_pos hv] at h
    exact Or.inr (List.mem_of_mem_filter h)
  · rw [if_neg hv] at h
    rcases Memory.mem_insertCell.mp h with h | h
    · exact Or.inl ⟨h, hv⟩
    · exact Or.inr (List.mem_of_mem_filter h)

theorem Memory.pairwise_insertCell {m : Memory} {c : Host.Cell}
    (hm : m.Pairwise (fun c d => c.1 < d.1)) (hc : ∀ d ∈ m, d.1 ≠ c.1) :
    (Memory.insertCell m c).Pairwise (fun c d => c.1 < d.1) := by
  induction m with
  | nil => simp [Memory.insertCell]
  | cons d rest ih =>
    have hd := List.pairwise_cons.mp hm
    have hrest := ih hd.2 (fun e he => hc e (by simp [he]))
    unfold Memory.insertCell
    by_cases h : c.1 < d.1
    · simp only [h, if_true]
      refine List.pairwise_cons.mpr ⟨fun e he => ?_, hm⟩
      rcases List.mem_cons.mp he with rfl | he
      · exact h
      · exact Nat.lt_trans h (hd.1 e he)
    · simp only [h, if_false]
      refine List.pairwise_cons.mpr ⟨fun e he => ?_, hrest⟩
      rcases Memory.mem_insertCell.mp he with rfl | he
      · have := hc d (by simp)
        omega
      · exact hd.1 e he

/-- A write of a byte inside the address space keeps the canonical form. -/
theorem Memory.wf_writeByte {m : Memory} {a : Nat} (v : Byte) (hm : Memory.wf m) (ha : a < 2 ^ 32) :
    Memory.wf (Memory.writeByte m a v) := by
  constructor
  · unfold Memory.writeByte
    have he : (Memory.erase m a).Pairwise (fun c d => c.1 < d.1) := List.Pairwise.filter _ hm.1
    by_cases hv : v = unlistedByte
    · simpa [hv] using he
    · simpa [hv] using Memory.pairwise_insertCell he (fun d hd => Memory.ne_of_mem_erase hd)
  · intro c hc
    rcases Memory.mem_writeByte hc with ⟨rfl, hv⟩ | h
    · exact ⟨ha, hv⟩
    · exact hm.2 c h

/-! ## One word -/

theorem byteAddr_lt (a : Word) (k : Nat) : byteAddr a k < 2 ^ 32 := BitVec.isLt _

theorem byteAddr_aligned {a : Word} (h : aligned a) {k : Nat} (hk : k < 4) :
    byteAddr a k = a.toNat + k := by
  have := a.isLt
  unfold aligned at h
  unfold byteAddr
  rw [BitVec.toNat_add, BitVec.toNat_ofNat, Nat.mod_eq_of_lt (a := k) (by omega)]
  omega

/-- The four bytes of a word have four addresses. -/
theorem byteAddr_injective (a : Word) {j k : Nat} (hj : j < 4) (hk : k < 4)
    (h : byteAddr a j = byteAddr a k) : j = k := by
  unfold byteAddr at h
  simp only [BitVec.toNat_add, BitVec.toNat_ofNat] at h
  omega

/-- A write of a word keeps the canonical form. -/
theorem Memory.wf_writeWord (o : ByteOrder) {m : Memory} (a v : Word) (hm : Memory.wf m) :
    Memory.wf (Memory.writeWord o m a v) := by
  unfold Memory.writeWord
  exact Memory.wf_writeByte _ (Memory.wf_writeByte _ (Memory.wf_writeByte _
    (Memory.wf_writeByte _ hm (byteAddr_lt a 0)) (byteAddr_lt a 1)) (byteAddr_lt a 2))
    (byteAddr_lt a 3)

/-- What a word write can list: bytes of that word, and cells already there. -/
theorem Memory.mem_writeWord {o : ByteOrder} {m : Memory} {a v : Word} {d : Host.Cell}
    (h : d ∈ Memory.writeWord o m a v) : inWord a d.1 ∨ d ∈ m := by
  unfold Memory.writeWord at h
  rcases Memory.mem_writeByte h with ⟨e, -⟩ | h
  · exact Or.inl (Or.inr (Or.inr (Or.inr (congrArg Prod.fst e))))
  rcases Memory.mem_writeByte h with ⟨e, -⟩ | h
  · exact Or.inl (Or.inr (Or.inr (Or.inl (congrArg Prod.fst e))))
  rcases Memory.mem_writeByte h with ⟨e, -⟩ | h
  · exact Or.inl (Or.inr (Or.inl (congrArg Prod.fst e)))
  rcases Memory.mem_writeByte h with ⟨e, -⟩ | h
  · exact Or.inl (Or.inl (congrArg Prod.fst e))
  exact Or.inr h

/-- Each byte after a word write: the written bytes in place, every other byte as it was. -/
theorem Memory.readByte_writeWord (o : ByteOrder) (m : Memory) (a v : Word) (b : Nat) :
    Memory.readByte (Memory.writeWord o m a v) b =
      if b = byteAddr a 3 then byteOfWord o v 3 else if b = byteAddr a 2 then byteOfWord o v 2
      else if b = byteAddr a 1 then byteOfWord o v 1 else if b = byteAddr a 0 then byteOfWord o v 0
      else Memory.readByte m b := by
  simp only [Memory.writeWord, Memory.readByte_writeByte]

/-- A word write leaves every byte outside the word alone (R34). -/
theorem Memory.readByte_writeWord_of_not_inWord (o : ByteOrder) (m : Memory) (a v : Word) {b : Nat}
    (h : ¬ inWord a b) : Memory.readByte (Memory.writeWord o m a v) b = Memory.readByte m b := by
  rw [Memory.readByte_writeWord]
  have h0 : ¬ b = byteAddr a 0 := fun e => h (Or.inl e)
  have h1 : ¬ b = byteAddr a 1 := fun e => h (Or.inr (Or.inl e))
  have h2 : ¬ b = byteAddr a 2 := fun e => h (Or.inr (Or.inr (Or.inl e)))
  have h3 : ¬ b = byteAddr a 3 := fun e => h (Or.inr (Or.inr (Or.inr e)))
  simp [h0, h1, h2, h3]

/-- The bytes of a word make up the word, in either byte order (R31). -/
theorem wordOfBytes_byteOfWord (o : ByteOrder) (v : Word) :
    wordOfBytes o (byteOfWord o v 0) (byteOfWord o v 1) (byteOfWord o v 2) (byteOfWord o v 3) = v := by
  cases o <;>
  · simp only [wordOfBytes, byteOfWord]
    apply BitVec.eq_of_getLsbD_eq
    intro i hi
    simp only [BitVec.getLsbD_append, BitVec.getLsbD_extractLsb']
    by_cases h1 : i < 8
    · simp [h1]
    by_cases h2 : i - 8 < 8
    · simp [h1, h2]; congr 1; omega
    by_cases h3 : i - 8 - 8 < 8
    · simp [h1, h2, h3]; congr 1; omega
    · have h4 : i - 8 - 8 - 8 < 8 := by omega
      simp [h1, h2, h3, h4]; congr 1; omega

/-- Different words have no byte in common. -/
theorem byteAddr_ne_of_ne {a b : Word} (ha : aligned a) (hb : aligned b) (h : b ≠ a) {j k : Nat}
    (hj : j < 4) (hk : k < 4) : byteAddr b j ≠ byteAddr a k := by
  rw [byteAddr_aligned hb hj, byteAddr_aligned ha hk]
  intro e
  apply h
  apply BitVec.eq_of_toNat_eq
  unfold aligned at ha hb
  omega

/-- A read after a write of the same word (R34). -/
theorem Memory.readWord_writeWord_self (o : ByteOrder) (m : Memory) (a v : Word) :
    Memory.readWord o (Memory.writeWord o m a v) a = v := by
  have h : ∀ j k, j < 4 → k < 4 → j ≠ k → byteAddr a j ≠ byteAddr a k :=
    fun j k hj hk hn e => hn (byteAddr_injective a hj hk e)
  unfold Memory.readWord
  simp only [Memory.readByte_writeWord]
  simp [h 0 3, h 0 2, h 0 1, h 1 3, h 1 2, h 2 3, wordOfBytes_byteOfWord]

/-- A write of a word leaves every other word alone (R34). -/
theorem Memory.readWord_writeWord_ne (o : ByteOrder) (m : Memory) (v : Word) {a b : Word}
    (ha : aligned a) (hb : aligned b) (h : b ≠ a) :
    Memory.readWord o (Memory.writeWord o m a v) b = Memory.readWord o m b := by
  have byte : ∀ k < 4, Memory.readByte (Memory.writeWord o m a v) (byteAddr b k) =
      Memory.readByte m (byteAddr b k) := fun k hk =>
    Memory.readByte_writeWord_of_not_inWord o m a v (by
      rintro (e | e | e | e)
      · exact byteAddr_ne_of_ne ha hb h hk (by omega) e
      · exact byteAddr_ne_of_ne ha hb h hk (by omega) e
      · exact byteAddr_ne_of_ne ha hb h hk (by omega) e
      · exact byteAddr_ne_of_ne ha hb h hk (by omega) e)
  unfold Memory.readWord
  rw [byte 0 (by omega), byte 1 (by omega), byte 2 (by omega), byte 3 (by omega)]

end Sys2Proof.Machine
end

