-- ==== Sys2Proof/Laws/Ops.lean ====
section
/-! SUPPORT. One lemma per shared operation that says once everything it can do, for proofs to cite
instead of unfolding the operation; and the launch parameters' small lemmas. -/

namespace Sys2Proof.Machine

/-! ## Sequencing -/

@[simp] theorem andThen_next {α β : Type} (a : α) (k : α → Host.Outcome β Fault Refusal) :
    andThen (.next a) k = k a := rfl

@[simp] theorem andThen_fault {α β : Type} (f : Fault) (k : α → Host.Outcome β Fault Refusal) :
    andThen (.fault f) k = .fault f := rfl

@[simp] theorem andThen_refused {α β : Type} (r : Refusal) (k : α → Host.Outcome β Fault Refusal) :
    andThen (.refused r) k = .refused r := rfl

@[simp] theorem State.raise_eq {α : Type} (s : State) (f : Word → Fault) :
    (s.raise f : Host.Outcome α Fault Refusal) = .fault (f s.pc) := rfl

/-- A sequence answers a next state only through both of its parts. -/
theorem andThen_eq_next {α β : Type} {o : Host.Outcome α Fault Refusal}
    {k : α → Host.Outcome β Fault Refusal} {b : β} (h : andThen o k = .next b) :
    ∃ a, o = .next a ∧ k a = .next b := by
  cases o with
  | next a => exact ⟨a, rfl, h⟩
  | fault f => cases h
  | refused r => cases h

/-! ## Launch parameters -/

/-- R110: `TEXT_RANGE ⊆ MEM_VALID`. -/
theorem Launch.memValid_of_inText {l : Launch} {a : Word} (h : l.inText a = true) :
    l.memValid a = true := by
  unfold Launch.inText at h
  unfold Launch.memValid
  rw [List.any_eq_true] at h ⊢
  obtain ⟨r, hr, h⟩ := h
  exact ⟨r, hr, (Bool.and_eq_true _ _ ▸ h).2⟩

/-- Populated addresses are word-aligned (R36). -/
theorem Launch.aligned_of_memValid {l : Launch} {a : Word} (h : l.memValid a = true) : aligned a := by
  unfold Launch.memValid at h
  rw [List.any_eq_true] at h
  obtain ⟨r, -, h⟩ := h
  unfold Region.contains at h
  simp only [Bool.and_eq_true, beq_iff_eq] at h
  exact h.1.1

/-! ## Checked accesses -/

/-- Everything `loadWord` can answer (R33, R81). -/
theorem State.loadWord_cases (s : State) (ea : Word) :
    (¬ aligned ea ∧ s.loadWord ea = .fault (.addressErrorLoad s.pc ea)) ∨
    (aligned ea ∧ s.launch.memValid ea = false ∧ s.loadWord ea = .fault (.accessFault s.pc ea)) ∨
    (s.launch.memValid ea = true ∧ s.loadWord ea = .next (s.word ea)) := by
  unfold State.loadWord
  by_cases h1 : aligned ea
  · cases h2 : s.launch.memValid ea
    · exact Or.inr (Or.inl ⟨h1, rfl, by simp [h1]⟩)
    · exact Or.inr (Or.inr ⟨rfl, by simp [h1]⟩)
  · exact Or.inl ⟨h1, by simp [h1]⟩

/-- Everything `storeWord` can answer (R34, R82). -/
theorem State.storeWord_cases (s : State) (ea v : Word) :
    (¬ aligned ea ∧ s.storeWord ea v = .fault (.addressErrorStore s.pc ea)) ∨
    (aligned ea ∧ s.launch.memValid ea = false ∧ s.storeWord ea v = .fault (.accessFault s.pc ea)) ∨
    (s.launch.inText ea = true ∧ s.storeWord ea v = .refused (.storeToText s.pc ea)) ∨
    (s.launch.memValid ea = true ∧ s.launch.inText ea = false ∧
      s.storeWord ea v = .next (s.setWord ea v)) := by
  unfold State.storeWord
  by_cases h1 : aligned ea
  · cases h2 : s.launch.memValid ea
    · exact Or.inr (Or.inl ⟨h1, rfl, by simp [h1]⟩)
    · cases h3 : s.launch.inText ea
      · exact Or.inr (Or.inr (Or.inr ⟨rfl, rfl, by simp [h1]⟩))
      · exact Or.inr (Or.inr (Or.inl ⟨rfl, by simp [h1]⟩))
  · exact Or.inl ⟨h1, by simp [h1]⟩

/-- Everything the fetch can answer (R18 steps 2 to 5). -/
theorem State.fetch_cases (s : State) :
    (¬ aligned s.pc ∧ s.fetch = .fault (.addressErrorFetch s.pc s.pc)) ∨
    (aligned s.pc ∧ s.launch.memValid s.pc = false ∧ s.fetch = .fault (.accessFault s.pc s.pc)) ∨
    (s.launch.memValid s.pc = true ∧ s.launch.inText s.pc = false ∧
      s.fetch = .refused (.fetchOutsideText s.pc)) ∨
    (s.launch.inText s.pc = true ∧ s.fetch = .next (s.word s.pc)) := by
  unfold State.fetch
  by_cases h1 : aligned s.pc
  · cases h2 : s.launch.memValid s.pc
    · exact Or.inr (Or.inl ⟨h1, rfl, by simp [h1]⟩)
    · cases h3 : s.launch.inText s.pc
      · exact Or.inr (Or.inr (Or.inl ⟨rfl, rfl, by simp [h1]⟩))
      · exact Or.inr (Or.inr (Or.inr ⟨rfl, by simp [h1]⟩))
  · exact Or.inl ⟨h1, by simp [h1]⟩

/-! ## Endings -/

/-- Everything the ending of `add`, `sub` and `addi` can answer (R70, R97). -/
theorem State.writeIfFits_cases (s : State) (rd : Reg) (exact : Int) (v : Word) :
    (fitsSigned exact ∧ s.writeIfFits rd exact v = .next (s.setReg rd v).advance) ∨
    (¬ fitsSigned exact ∧ s.writeIfFits rd exact v = .fault (.integerOverflow s.pc)) := by
  by_cases h : fitsSigned exact
  · exact Or.inl ⟨h, if_pos h⟩
  · exact Or.inr ⟨h, if_neg h⟩

/-- Everything a branch can do (R86): it writes `pc` and nothing else. -/
theorem State.branchIf_cases (s : State) (taken : Prop) [Decidable taken] (imm : Imm16) :
    (taken ∧ s.branchIf taken imm = s.setPc (s.branchTarget imm)) ∨
    (¬ taken ∧ s.branchIf taken imm = s.setPc (s.pc + 4#32)) := by
  by_cases h : taken
  · exact Or.inl ⟨h, if_pos h⟩
  · exact Or.inr ⟨h, if_neg h⟩

end Sys2Proof.Machine
end

