-- ==== Sys2Proof/Laws/PerInstr.lean ====
section
/-! SUPPORT. Per instruction: its word carries the row of spec/opcode_table.json it stands for, that
is, under the row's mask it is the row's match. -/

namespace Sys2Proof

/-- `mask` and `match` of the instruction's row in spec/opcode_table.json, copied from the table. -/
def tableRow : Instr → Word × Word
  | .add _ _ _ => (0xFC0007FF#32, 0x00000020#32)
  | .sub _ _ _ => (0xFC0007FF#32, 0x00000022#32)
  | .and _ _ _ => (0xFC0007FF#32, 0x00000024#32)
  | .or _ _ _ => (0xFC0007FF#32, 0x00000025#32)
  | .slt _ _ _ => (0xFC0007FF#32, 0x0000002A#32)
  | .mult _ _ => (0xFC00FFFF#32, 0x00000018#32)
  | .div _ _ => (0xFC00FFFF#32, 0x0000001A#32)
  | .mfhi _ => (0xFFFF07FF#32, 0x00000010#32)
  | .mflo _ => (0xFFFF07FF#32, 0x00000012#32)
  | .jr _ => (0xFC1FFFFF#32, 0x00000008#32)
  | .lw _ _ _ => (0xFC000000#32, 0x90000000#32)
  | .sw _ _ _ => (0xFC000000#32, 0xB0000000#32)
  | .addi _ _ _ => (0xFC000000#32, 0x20000000#32)
  | .slti _ _ _ => (0xFC000000#32, 0x28000000#32)
  | .beq _ _ _ => (0xFC000000#32, 0x10000000#32)
  | .bne _ _ _ => (0xFC000000#32, 0x14000000#32)
  | .j _ => (0xFC000000#32, 0x08000000#32)
  | .jal _ => (0xFC000000#32, 0x0C000000#32)

theorem toNat_append_eq_add {m n : Nat} (x : BitVec m) (y : BitVec n) :
    (x ++ y).toNat = x.toNat * 2 ^ n + y.toNat := by
  rw [BitVec.toNat_append, ← Nat.shiftLeft_add_eq_or_of_lt y.isLt, Nat.shiftLeft_eq]

/-- The R format as its fields in order (R45). -/
theorem encodeR_eq_append (rs rt rd shamt : BitVec 5) (funct : BitVec 6) :
    encodeR rs rt rd shamt funct = 0#6 ++ rs ++ rt ++ rd ++ shamt ++ funct := by
  apply BitVec.eq_of_toNat_eq
  simp only [encodeR, toNat_append_eq_add, BitVec.toNat_ofNat]
  omega

/-- The I format as its fields in order (R46). -/
theorem encodeI_eq_append (op : BitVec 6) (rs rt : Reg) (imm : Imm16) :
    encodeI op rs rt imm = op ++ rs ++ rt ++ imm := by
  apply BitVec.eq_of_toNat_eq
  simp only [encodeI, toNat_append_eq_add, BitVec.toNat_ofNat]
  omega

/-- The J format as its fields in order (R47). -/
theorem encodeJ_eq_append (op : BitVec 6) (target : Target26) :
    encodeJ op target = op ++ target := by
  apply BitVec.eq_of_toNat_eq
  simp only [encodeJ, toNat_append_eq_add, BitVec.toNat_ofNat]
  omega

/-- Masking an R-format word masks its fields one by one. -/
theorem encodeR_and (rs rt rd shamt : BitVec 5) (funct m1 : BitVec 6) (m2 m3 m4 m5 : BitVec 5)
    (m6 : BitVec 6) :
    encodeR rs rt rd shamt funct &&& (m1 ++ m2 ++ m3 ++ m4 ++ m5 ++ m6 : BitVec 32) =
      (0#6 ++ (rs &&& m2) ++ (rt &&& m3) ++ (rd &&& m4) ++ (shamt &&& m5) ++ (funct &&& m6) :
        BitVec 32) := by
  rw [encodeR_eq_append]
  refine BitVec.and_append.trans ?_
  simp only [BitVec.and_append, BitVec.zero_and]

/-- The opcode mask leaves the opcode of an I-format word. -/
theorem encodeI_and_opMask (op : BitVec 6) (rs rt : Reg) (imm : Imm16) :
    encodeI op rs rt imm &&& 0xFC000000#32 = op ++ 0#26 := by
  have h := BitVec.and_append (x₁ := op ++ rs ++ rt) (x₂ := 0x3F#6 ++ 0#5 ++ 0#5) (y₁ := imm) (y₂ := 0#16)
  rw [encodeI_eq_append]
  refine h.trans (BitVec.eq_of_toNat_eq ?_)
  rw [BitVec.and_append, BitVec.and_append, BitVec.and_zero, BitVec.and_zero, BitVec.and_zero,
    show op &&& 0x3F#6 = op from BitVec.and_allOnes]
  simp only [toNat_append_eq_add, BitVec.toNat_ofNat]
  omega

/-- The opcode mask leaves the opcode of a J-format word. -/
theorem encodeJ_and_opMask (op : BitVec 6) (target : Target26) :
    encodeJ op target &&& 0xFC000000#32 = op ++ 0#26 := by
  have h := BitVec.and_append (x₁ := op) (x₂ := 0x3F#6) (y₁ := target) (y₂ := 0#26)
  rw [encodeJ_eq_append]
  refine h.trans ?_
  rw [BitVec.and_zero, show op &&& 0x3F#6 = op from BitVec.and_allOnes]

namespace Laws.TableRow

/-- The word of the instruction is its table row's match under the row's mask. -/
def Statement (i : Instr) : Prop := encode i &&& (tableRow i).1 = (tableRow i).2

theorem add (rd rs rt : Reg) : Statement (.add rd rs rt) :=
  (encodeR_and rs rt rd 0#5 32#6 0x3F#6 0#5 0#5 0#5 0x1F#5 0x3F#6).trans (by simp [tableRow])

theorem sub (rd rs rt : Reg) : Statement (.sub rd rs rt) :=
  (encodeR_and rs rt rd 0#5 34#6 0x3F#6 0#5 0#5 0#5 0x1F#5 0x3F#6).trans (by simp [tableRow])

theorem and (rd rs rt : Reg) : Statement (.and rd rs rt) :=
  (encodeR_and rs rt rd 0#5 36#6 0x3F#6 0#5 0#5 0#5 0x1F#5 0x3F#6).trans (by simp [tableRow])

theorem or (rd rs rt : Reg) : Statement (.or rd rs rt) :=
  (encodeR_and rs rt rd 0#5 37#6 0x3F#6 0#5 0#5 0#5 0x1F#5 0x3F#6).trans (by simp [tableRow])

theorem slt (rd rs rt : Reg) : Statement (.slt rd rs rt) :=
  (encodeR_and rs rt rd 0#5 42#6 0x3F#6 0#5 0#5 0#5 0x1F#5 0x3F#6).trans (by simp [tableRow])

theorem mult (rs rt : Reg) : Statement (.mult rs rt) :=
  (encodeR_and rs rt 0#5 0#5 24#6 0x3F#6 0#5 0#5 0x1F#5 0x1F#5 0x3F#6).trans (by simp [tableRow])

theorem div (rs rt : Reg) : Statement (.div rs rt) :=
  (encodeR_and rs rt 0#5 0#5 26#6 0x3F#6 0#5 0#5 0x1F#5 0x1F#5 0x3F#6).trans (by simp [tableRow])

theorem mfhi (rd : Reg) : Statement (.mfhi rd) :=
  (encodeR_and 0#5 0#5 rd 0#5 16#6 0x3F#6 0x1F#5 0x1F#5 0#5 0x1F#5 0x3F#6).trans (by simp [tableRow])

theorem mflo (rd : Reg) : Statement (.mflo rd) :=
  (encodeR_and 0#5 0#5 rd 0#5 18#6 0x3F#6 0x1F#5 0x1F#5 0#5 0x1F#5 0x3F#6).trans (by simp [tableRow])

theorem jr (rs : Reg) : Statement (.jr rs) :=
  (encodeR_and rs 0#5 0#5 0#5 8#6 0x3F#6 0#5 0x1F#5 0x1F#5 0x1F#5 0x3F#6).trans (by simp [tableRow])

theorem lw (rt rs : Reg) (imm : Imm16) : Statement (.lw rt rs imm) :=
  encodeI_and_opMask _ rs rt imm

theorem sw (rt rs : Reg) (imm : Imm16) : Statement (.sw rt rs imm) :=
  encodeI_and_opMask _ rs rt imm

theorem addi (rt rs : Reg) (imm : Imm16) : Statement (.addi rt rs imm) :=
  encodeI_and_opMask _ rs rt imm

theorem slti (rt rs : Reg) (imm : Imm16) : Statement (.slti rt rs imm) :=
  encodeI_and_opMask _ rs rt imm

theorem beq (rs rt : Reg) (imm : Imm16) : Statement (.beq rs rt imm) :=
  encodeI_and_opMask _ rs rt imm

theorem bne (rs rt : Reg) (imm : Imm16) : Statement (.bne rs rt imm) :=
  encodeI_and_opMask _ rs rt imm

theorem j (target : Target26) : Statement (.j target) :=
  encodeJ_and_opMask _ target

theorem jal (target : Target26) : Statement (.jal target) :=
  encodeJ_and_opMask _ target

end Laws.TableRow

end Sys2Proof
end

