-- ==== Sys2Proof/Laws/Run.lean ====
section
/-! SUPPORT. Runs of the host's interface and of the bookkeeping: one step more, and what a step can
answer from a state that carries a record. -/

namespace Sys2Proof.Machine

/-- For any core: a run of `k + 1` steps is one step and then `k`. -/
theorem core_run_succ (M : Host.Core) (k : Nat) (s t : M.State) :
    M.run (k + 1) s = .next t ↔ ∃ u, M.step s = .next u ∧ M.run k u = .next t := by
  rw [Host.Core.run]
  cases h : M.step s with
  | next u => simp
  | fault f => simp
  | refused r => simp

@[simp] theorem runsTo_zero (s t : State) : runsTo 0 s t ↔ s = t :=
  ⟨fun h => Host.Outcome.next.inj h, fun h => congrArg _ h⟩

/-- A run of this machine of `k + 1` steps is one step and then `k`. -/
theorem runsTo_succ (k : Nat) (s t : State) :
    runsTo (k + 1) s t ↔ ∃ u, step s = .next u ∧ runsTo k u t :=
  core_run_succ Sys2Proof.core k s t

/-- A state that carries a fault record takes no step (R99). -/
theorem step_of_faultRecord {s : State} {f : Fault} (h : s.faultRecord = some f) :
    step s = .fault f := by
  unfold step
  rw [h]

/-- A state that carries a refused mark and no fault record takes no step (R100). -/
theorem step_of_refusedMark {s : State} {r : Refusal} (hf : s.faultRecord = none)
    (h : s.refusedMark = some r) : step s = .refused r := by
  unfold step
  rw [hf, h]

/-- The step from a state that carries no record and is not at `HALT_PC` (R18 from step 2 on). -/
theorem step_of_running {s : State} (h : s.running) (hp : s.pc ≠ s.launch.haltPc) :
    step s = andThen s.fetch fun w =>
      match decode w with
      | .ok i => exec i s
      | .error _ => .fault (.reservedInstruction s.pc w) := by
  unfold step
  rw [h.1, h.2]
  exact if_neg hp

end Sys2Proof.Machine
end

