-- ==== Sys2Proof/Tests/Slice0.lean ====
section
/-! SUPPORT. Tests with expected results from spec/95_test_vectors.md (V-, S- and P-numbers) or worked
out by hand from the rule named, and for every statement with hypotheses a concrete state that meets
them (`witness_<statement>`). -/

namespace Sys2Proof.Tests
open Sys2Proof Sys2Proof.Machine

/-! ## Helpers -/

/-- The launch of the vectors V40 to V158: text `0x00400000` to `0x004000FC`, data `0x10000000` to
`0x100000FC`. -/
def testLaunch : Launch where
  byteOrder := .big
  map := [⟨0x00100000, 64, .text⟩, ⟨0x04000000, 64, .data⟩]
  entryPc := 0x00400000#32
  haltPc := 0x00500000#32

/-- The launch state of `testLaunch` with some registers set. -/
def base (regs : List (Reg × Word)) : State :=
  regs.foldl (fun s p => s.setReg p.1 p.2) (State.atLaunch testLaunch Init.zero)

/-- That state at `pc`, with the word `w` loaded there. -/
def load (pc w : Word) (regs : List (Reg × Word)) : State :=
  ((base regs).setPc pc).withFetchWord 32 w.toNat

/-- The state at `ENTRY_PC` with the word `w` loaded there. -/
def load0 (w : Word) (regs : List (Reg × Word)) : State := load 0x00400000#32 w regs

/-- What `f` reads from a next state. -/
def nextOf {α : Type} (o : Host.Outcome State Fault Refusal) (f : State → α) : Option α :=
  match o with
  | .next t => some (f t)
  | .fault _ | .refused _ => none

/-- The fault of an outcome. -/
def faultOf (o : Host.Outcome State Fault Refusal) : Option Fault :=
  match o with
  | .fault f => some f
  | .next _ | .refused _ => none

/-- The refusal of an outcome. -/
def refusalOf (o : Host.Outcome State Fault Refusal) : Option Refusal :=
  match o with
  | .refused r => some r
  | .next _ | .fault _ => none

/-! ## Well-formedness: an ill-formed term for each check -/

theorem test_launch_wellFormed : testLaunch.wellFormed = true ∧ Launch.default.wellFormed = true := by decide
theorem test_entry_pc_misaligned_refused :
    Launch.wellFormed { testLaunch with entryPc := 0x00400002#32 } = false := by decide
theorem test_halt_pc_misaligned_refused :
    Launch.wellFormed { testLaunch with haltPc := 0x00500001#32 } = false := by decide
theorem test_halt_pc_in_text_refused :
    Launch.wellFormed { testLaunch with haltPc := 0x004000FC#32 } = false := by decide
theorem test_region_past_the_top_refused :
    Region.wellFormed ⟨2 ^ 30 - 1, 2, .data⟩ = false ∧ Region.wellFormed ⟨2 ^ 30 - 1, 1, .data⟩ = true ∧
      Launch.wellFormed { testLaunch with map := [⟨2 ^ 30 - 1, 2, .data⟩] } = false := by decide
/-- R64: no register number is illegal, 0 and 31 included (V19, V20). -/
theorem test_instr_wellFormed :
    (Instr.add 31#5 31#5 31#5).wellFormed = true ∧ (Instr.add 0#5 0#5 0#5).wellFormed = true := by decide
theorem test_memory_wf :
    Memory.wf [(4, 1#8), (5, 2#8)] ∧ ¬ Memory.wf [(5, 2#8), (4, 1#8)] ∧ ¬ Memory.wf [(4, 0#8)] ∧
      ¬ Memory.wf [(2 ^ 32, 1#8)] := by decide

/-! ## Decoding and encoding: one word written out per row, from the encodings of R70 to R91 -/

theorem test_decode_add : decode 0b000000_10001_10010_01000_00000_100000#32 = .ok (.add 8#5 17#5 18#5) := by decide
theorem test_decode_sub : decode 0b000000_10010_10011_10001_00000_100010#32 = .ok (.sub 17#5 18#5 19#5) := by decide
theorem test_decode_and : decode 0b000000_10010_10011_10001_00000_100100#32 = .ok (.and 17#5 18#5 19#5) := by decide
theorem test_decode_or : decode 0b000000_10001_10010_01000_00000_100101#32 = .ok (.or 8#5 17#5 18#5) := by decide
theorem test_decode_slt : decode 0b000000_10001_10010_01000_00000_101010#32 = .ok (.slt 8#5 17#5 18#5) := by decide
theorem test_decode_mult : decode 0b000000_10001_10010_00000_00000_011000#32 = .ok (.mult 17#5 18#5) := by decide
theorem test_decode_div : decode 0b000000_10001_10010_00000_00000_011010#32 = .ok (.div 17#5 18#5) := by decide
theorem test_decode_mfhi : decode 0b000000_00000_00000_01000_00000_010000#32 = .ok (.mfhi 8#5) := by decide
theorem test_decode_mflo : decode 0b000000_00000_00000_01001_00000_010010#32 = .ok (.mflo 9#5) := by decide
theorem test_decode_jr : decode 0b000000_11111_000000000000000_001000#32 = .ok (.jr 31#5) := by decide
theorem test_decode_lw : decode 0b100100_10011_01000_0000000000100000#32 = .ok (.lw 8#5 19#5 32#16) := by decide
theorem test_decode_sw : decode 0b101100_11101_11111_0000000000000000#32 = .ok (.sw 31#5 29#5 0#16) := by decide
theorem test_decode_addi : decode 0b001000_11101_11101_1111111111111000#32 = .ok (.addi 29#5 29#5 (-8#16)) := by decide
theorem test_decode_slti : decode 0b001010_10010_01000_1111111111111111#32 = .ok (.slti 8#5 18#5 (-1#16)) := by decide
theorem test_decode_beq : decode 0b000100_10001_10000_0000000000011001#32 = .ok (.beq 17#5 16#5 25#16) := by decide
theorem test_decode_bne : decode 0b000101_01000_10101_0000000000000010#32 = .ok (.bne 8#5 21#5 2#16) := by decide
theorem test_decode_j : decode 0b000010_00000000000000000000001000#32 = .ok (.j 8#26) := by decide
theorem test_decode_jal : decode 0b000011_00000000000100111000100000#32 = .ok (.jal 20000#26) := by decide

/-- The digit rows the source prints (S1, S4, S5, S7, S10) and S6, S8, S12, S14, S16 to S18. -/
theorem test_encode :
    encode (.add 8#5 17#5 18#5) = 0x02324020#32 ∧ encode (.and 17#5 18#5 19#5) = 0x02538824#32 ∧
    encode (.lw 8#5 19#5 32#16) = 0x92680020#32 ∧ encode (.addi 18#5 19#5 32#16) = 0x22720020#32 ∧
    encode (.beq 17#5 16#5 25#16) = 0x12300019#32 ∧ encode (.sw 8#5 19#5 32#16) = 0xB2680020#32 ∧
    encode (.slti 8#5 18#5 8#16) = 0x2A480008#32 ∧ encode (.beq 17#5 18#5 (-25#16)) = 0x1232FFE7#32 ∧
    encode (.beq 8#5 21#5 (-7#16)) = 0x1115FFF9#32 ∧ encode (.j 20000#26) = 0x08004E20#32 ∧
    encode (.jr 31#5) = 0x03E00008#32 ∧ encode (.lw 5#5 10#5 4#16) = 0x91450004#32 := by decide

/-- V21 to V31: one word for each way of being reserved, and the standard MIPS32 `lw` (D24). -/
theorem test_decode_reserved :
    decode 0x00000000#32 = .error .funct ∧ decode 0x02324060#32 = .error .unusedField ∧
    decode 0x02320818#32 = .error .unusedField ∧ decode 0x00204010#32 = .error .unusedField ∧
    decode 0x03E10008#32 = .error .unusedField ∧ decode 0x8E680020#32 = .error .opcode ∧
    decode 0xFFFFFFFF#32 = .error .opcode := by decide

theorem test_table_word :
    decodeTableWord 32 0x02324020 = some (.add 8#5 17#5 18#5) ∧ decodeTableWord 32 0 = none := by decide

/-! ## One step of each instruction -/

/-- V44: 2^31 - 1 + -2^31. -/
theorem test_add : nextOf (step (load0 0x02324020#32 [(17#5, 0x7FFFFFFF#32), (18#5, 0x80000000#32)]))
    (fun t => (t.reg 8#5, t.reg 17#5, t.pc)) = some (0xFFFFFFFF#32, 0x7FFFFFFF#32, 0x00400004#32) := by decide
/-- V47: the fault is raised although the destination is `$0`. -/
theorem test_add_overflow : faultOf (step (load0 0x02320020#32 [(17#5, 0x7FFFFFFF#32), (18#5, 1#32)])) =
    some (.integerOverflow 0x00400000#32) := by decide
/-- V49: `rs` is the minuend. -/
theorem test_sub : nextOf (step (load0 0x02538822#32 [(18#5, 3#32), (19#5, 10#32)]))
    (fun t => (t.reg 17#5, t.pc)) = some (0xFFFFFFF9#32, 0x00400004#32) := by decide
/-- V50: 0 - -2^31. -/
theorem test_sub_overflow : faultOf (step (load0 0x02538822#32 [(19#5, 0x80000000#32)])) =
    some (.integerOverflow 0x00400000#32) := by decide
/-- V53. -/
theorem test_and : nextOf (step (load0 0x02538824#32 [(18#5, 0x0000FF0F#32), (19#5, 0x00F0F0FF#32)]))
    (fun t => (t.reg 17#5, t.pc)) = some (0x0000F00F#32, 0x00400004#32) := by decide
/-- V55. -/
theorem test_or : nextOf (step (load0 0x02324025#32 [(17#5, 0x0000FF00#32), (18#5, 0x000000FF#32)]))
    (fun t => (t.reg 8#5, t.pc)) = some (0x0000FFFF#32, 0x00400004#32) := by decide
/-- V57: -1 < 1. -/
theorem test_slt : nextOf (step (load0 0x0232402A#32 [(17#5, 0xFFFFFFFF#32), (18#5, 1#32)]))
    (fun t => (t.reg 8#5, t.pc)) = some (1#32, 0x00400004#32) := by decide
/-- V60: the whole register is written. -/
theorem test_slt_equal : nextOf (step (load0 0x0232402A#32 [(17#5, 9#32), (18#5, 9#32), (8#5, 0xFFFFFFFF#32)]))
    (fun t => t.reg 8#5) = some 0#32 := by decide
/-- V70: 6 times -7. -/
theorem test_mult : nextOf (step (load0 0x02320018#32 [(17#5, 6#32), (18#5, 0xFFFFFFF9#32)]))
    (fun t => (t.hi, t.lo, t.pc)) = some (0xFFFFFFFF#32, 0xFFFFFFD6#32, 0x00400004#32) := by decide
/-- V73. -/
theorem test_mult_wide : nextOf (step (load0 0x02320018#32 [(17#5, 0x80000000#32), (18#5, 0x7FFFFFFF#32)]))
    (fun t => (t.hi, t.lo)) = some (0xC0000000#32, 0x80000000#32) := by decide
/-- V77: -7 by 2 rounds toward zero. -/
theorem test_div : nextOf (step (load0 0x0232001A#32 [(17#5, 0xFFFFFFF9#32), (18#5, 2#32)]))
    (fun t => (t.lo, t.hi, t.draws)) = some (0xFFFFFFFD#32, 0xFFFFFFFF#32, 0) := by decide
/-- V82: a zero divisor goes on to the next instruction; nothing is said of `HI` and `LO`. -/
theorem test_div_by_zero : nextOf (step (load0 0x0232001A#32 [(17#5, 5#32)]))
    (fun t => (t.reg 17#5, t.pc)) = some (5#32, 0x00400004#32) := by decide
/-- V84. -/
theorem test_mfhi : nextOf (step ((load0 0x00004010#32 []).setHiLo 0x0BADF00D#32 0x11111111#32))
    (fun t => (t.reg 8#5, t.hi, t.lo)) = some (0x0BADF00D#32, 0x0BADF00D#32, 0x11111111#32) := by decide
/-- V85. -/
theorem test_mflo : nextOf (step ((load0 0x00004812#32 []).setHiLo 0x0BADF00D#32 0x11111111#32))
    (fun t => (t.reg 9#5, t.hi, t.lo)) = some (0x11111111#32, 0x0BADF00D#32, 0x11111111#32) := by decide
/-- V91: a negative offset. -/
theorem test_lw : nextOf (step ((load0 0x93A8FFFC#32 [(29#5, 0x10000010#32)]).setWord 0x1000000C#32 7#32))
    (fun t => (t.reg 8#5, t.reg 29#5, t.pc)) = some (7#32, 0x10000010#32, 0x00400004#32) := by decide
/-- V97: a load from the program is allowed. -/
theorem test_lw_from_text : nextOf (step (load0 0x92680000#32 [(19#5, 0x00400000#32)])) (fun t => t.reg 8#5) =
    some 0x92680000#32 := by decide
/-- V98. -/
theorem test_sw : nextOf (step (load0 0xB2680020#32 [(19#5, 0x10000000#32), (8#5, 0x11#32)]))
    (fun t => (t.word 0x10000020#32, t.word 0x1000001C#32, t.pc)) = some (0x11#32, 0#32, 0x00400004#32) := by decide
/-- V158: the address fault comes before the refusal. -/
theorem test_sw_misaligned_in_text : faultOf (step (load0 0xB2680001#32 [(19#5, 0x00400000#32)])) =
    some (.addressErrorStore 0x00400000#32 0x00400001#32) := by decide
/-- V111: a negative constant. -/
theorem test_addi : nextOf (step (load0 0x23BDFFF8#32 [(29#5, 0x7FFFF000#32)])) (fun t => t.reg 29#5) =
    some 0x7FFFEFF8#32 := by decide
/-- V115: -2^31 + -1. -/
theorem test_addi_overflow : faultOf (step (load0 0x2108FFFF#32 [(8#5, 0x80000000#32)])) =
    some (.integerOverflow 0x00400000#32) := by decide
/-- V118: 5 is not below -1. -/
theorem test_slti : nextOf (step (load0 0x2A48FFFF#32 [(18#5, 5#32), (8#5, 9#32)])) (fun t => t.reg 8#5) =
    some 0#32 := by decide
/-- V118: -2 is below -1. -/
theorem test_slti_below : nextOf (step (load0 0x2A48FFFF#32 [(18#5, 0xFFFFFFFE#32)])) (fun t => t.reg 8#5) =
    some 1#32 := by decide
/-- V122: 25 words back. -/
theorem test_beq_back : nextOf (step (load 0x00400100#32 0x1232FFE7#32 [(17#5, 3#32), (18#5, 3#32)])) State.pc =
    some 0x004000A0#32 := by decide
/-- V121. -/
theorem test_beq_not_taken : nextOf (step (load0 0x12320019#32 [(17#5, 3#32), (18#5, 4#32)])) State.pc =
    some 0x00400004#32 := by decide
/-- V127, taken: from 80016 to 80028. -/
theorem test_bne : nextOf (step (load 80016#32 0x15150002#32 [(8#5, 1#32)])) State.pc = some 80028#32 := by decide
/-- V127, not taken. -/
theorem test_bne_not_taken : nextOf (step (load 80016#32 0x15150002#32 [(8#5, 1#32), (21#5, 1#32)])) State.pc =
    some 80020#32 := by decide
/-- V130: `j 80000` at 80024. -/
theorem test_j : nextOf (step (load 80024#32 0x08004E20#32 [])) State.pc = some 80000#32 := by decide
/-- V132: the high bits are those of the next instruction's address. -/
theorem test_j_at_region_end : nextOf (step (load 0x0FFFFFFC#32 0x08000000#32 [])) State.pc =
    some 0x10000000#32 := by decide
/-- V135. -/
theorem test_jal : nextOf (step (load 0x00400010#32 0x0C100008#32 [(31#5, 0x11111111#32)]))
    (fun t => (t.reg 31#5, t.pc)) = some (0x00400014#32, 0x00400020#32) := by decide
/-- V137: all 32 bits, the low two included. -/
theorem test_jr : nextOf (step (load0 0x01000008#32 [(8#5, 0x00400006#32)])) State.pc =
    some 0x00400006#32 := by decide

/-! ## Fetch, priorities, wrap-around, end of run -/

/-- V150 to V153, V155. -/
theorem test_fetch :
    faultOf (step ((base []).setPc 0x00400002#32)) = some (.addressErrorFetch 0x00400002#32 0x00400002#32) ∧
    faultOf (step ((base []).setPc 0x30000000#32)) = some (.accessFault 0x30000000#32 0x30000000#32) ∧
    refusalOf (step ((base []).setPc 0x10000000#32)) = some (.fetchOutsideText 0x10000000#32) ∧
    nextOf (step ((base []).setPc 0x00500000#32)) State.pc = some 0x00500000#32 ∧
    faultOf (step (base [])) = some (.reservedInstruction 0x00400000#32 0x00000000#32) := by decide
/-- V157: misaligned before unpopulated; V94; V95: the address wraps. -/
theorem test_load_priority :
    faultOf (step (load0 0x92680002#32 [(19#5, 0x20000000#32)])) =
      some (.addressErrorLoad 0x00400000#32 0x20000002#32) ∧
    faultOf (step (load0 0x92680020#32 [(19#5, 0x20000000#32)])) =
      some (.accessFault 0x00400000#32 0x20000020#32) ∧
    faultOf (step (load0 0x92680008#32 [(19#5, 0xFFFFFFFC#32)])) =
      some (.accessFault 0x00400000#32 0x00000004#32) := by decide
/-- V126: a branch wraps below address 0. -/
theorem test_branch_wraps : nextOf (step (load 0#32 0x1000FFFE#32 [])) State.pc = some 0xFFFFFFFC#32 := by decide
/-- V46, V96: a write to `$0` is discarded, and the program counter goes on. -/
theorem test_write_to_zero :
    nextOf (step (load0 0x02320020#32 [(17#5, 1#32), (18#5, 2#32)])) (fun t => (t.reg 0#5, t.pc)) =
      some (0#32, 0x00400004#32) := by decide
/-- V92: the base is read before the destination is written. -/
theorem test_lw_into_its_base :
    nextOf (step ((load0 0x91080000#32 [(8#5, 0x10000004#32)]).setWord 0x10000004#32 0x10000008#32))
      (fun t => t.reg 8#5) = some 0x10000008#32 := by decide
/-- V101, P6: a store into the program is refused. -/
theorem test_store_to_text : refusalOf (step (load0 0xB2680000#32 [(19#5, 0x00400010#32)])) =
    some (.storeToText 0x00400000#32 0x00400010#32) := by decide
/-- R31: the bytes of a stored word in both orders. -/
theorem test_byte_order :
    ((base []).setWord 0x10000000#32 0x01020304#32).mem =
      [(0x10000000, 1#8), (0x10000001, 2#8), (0x10000002, 3#8), (0x10000003, 4#8)] ∧
    Memory.writeWord .little [] 0x10000000#32 0x01020304#32 =
      [(0x10000000, 4#8), (0x10000001, 3#8), (0x10000002, 2#8), (0x10000003, 1#8)] := by decide
/-- V99: a zero word leaves nothing listed. -/
theorem test_store_zero_unlists :
    (((base []).setWord 0x10000040#32 0xFFFFFFFF#32).setWord 0x10000040#32 0#32).mem = [] := by decide

/-! ## Assembly operands (R15, R61, R62, R85) -/

/-- R15's confirmed entries, both names of register 30, and R61, R62's examples. -/
theorem test_assembly_operands :
    regOfName "t0" = some 8#5 ∧ regOfName "t8" = some 24#5 ∧ regOfName "s8" = some 30#5 ∧
    regOfName "fp" = some 30#5 ∧ regOfName "ra" = some 31#5 ∧ regOfName "x1" = none ∧
    branchOperand 100 = some 25#16 ∧ branchOperand (-100) = some (-25#16) ∧ branchOperand 6 = none ∧
    branchToLabel 80016#32 80028#32 = some 2#16 ∧ branchToLabel 80024#32 80000#32 = some (-7#16) ∧
    jumpOperand 80000#32 = 20000#26 ∧ immOperand 32768 = none ∧
    subiReading 8#5 9#5 4 = some (.addi 8#5 9#5 (-4#16)) ∧ subiReading 8#5 9#5 (-32768) = none := by decide

/-! ## Witnesses: a concrete state and operands for the hypotheses of each statement -/

/-- The data word `0x10000000` is in `MEM_VALID` and outside `TEXT_RANGE`; `x[19]` points at it. -/
def store0 : State := load0 0xB2680000#32 [(19#5, 0x10000000#32), (8#5, 0x11#32)]

/-- `divide`: `div $s1, $s2` with the given dividend and divisor. -/
def divide (n d : Word) : State := load0 0x0232001A#32 [(17#5, n), (18#5, d)]

/-- Sums 2^31 - 1 and -2^31 fit; 2^31 and -2^31 - 1 do not. -/
theorem witness_AddWritesSumOrOverflows :
    (let s := base [(17#5, 0x7FFFFFFE#32), (18#5, 1#32)]; (s.reg 17#5).toInt + (s.reg 18#5).toInt = 2 ^ 31 - 1) ∧
    (let s := base [(17#5, 0x80000001#32), (18#5, 0xFFFFFFFF#32)]; (s.reg 17#5).toInt + (s.reg 18#5).toInt = -2 ^ 31) ∧
    (let s := base [(17#5, 0x7FFFFFFF#32), (18#5, 1#32)]; (s.reg 17#5).toInt + (s.reg 18#5).toInt > 2 ^ 31 - 1) ∧
    (let s := base [(17#5, 0x80000000#32), (18#5, 0xFFFFFFFF#32)]; (s.reg 17#5).toInt + (s.reg 18#5).toInt < -2 ^ 31) := by
  decide
theorem witness_SubWritesDifferenceOrOverflows :
    (let s := base [(18#5, 0x7FFFFFFE#32), (19#5, 0xFFFFFFFF#32)]; (s.reg 18#5).toInt - (s.reg 19#5).toInt = 2 ^ 31 - 1) ∧
    (let s := base [(18#5, 0x80000001#32), (19#5, 1#32)]; (s.reg 18#5).toInt - (s.reg 19#5).toInt = -2 ^ 31) ∧
    (let s := base [(18#5, 0#32), (19#5, 0x80000000#32)]; (s.reg 18#5).toInt - (s.reg 19#5).toInt > 2 ^ 31 - 1) ∧
    (let s := base [(18#5, 0x80000000#32), (19#5, 1#32)]; (s.reg 18#5).toInt - (s.reg 19#5).toInt < -2 ^ 31) := by
  decide
theorem witness_AddiWritesSumOrOverflows :
    (let s := base [(8#5, 0x7FFFFFFE#32)]; (s.reg 8#5).toInt + (1#16).toInt = 2 ^ 31 - 1) ∧
    (let s := base [(8#5, 0x80008000#32)]; (s.reg 8#5).toInt + (0x8000#16).toInt = -2 ^ 31) ∧
    (let s := base [(8#5, 0x7FFFFFFF#32)]; (s.reg 8#5).toInt + (1#16).toInt > 2 ^ 31 - 1) ∧
    (let s := base [(8#5, 0x80000000#32)]; (s.reg 8#5).toInt + (0xFFFF#16).toInt < -2 ^ 31) := by decide
/-- -2^31 by 2 and 2^31 - 1 by -1 are defined; a zero divisor and -2^31 by -1 are not. -/
theorem witness_DivWritesQuotientAndRemainder :
    (let s := divide 0x80000000#32 2#32; (s.reg 18#5).toInt ≠ 0 ∧ ¬ ((s.reg 17#5).toInt = -2 ^ 31 ∧ (s.reg 18#5).toInt = -1)) ∧
    (let s := divide 0x7FFFFFFF#32 0xFFFFFFFF#32; (s.reg 18#5).toInt ≠ 0 ∧ ¬ ((s.reg 17#5).toInt = -2 ^ 31 ∧ (s.reg 18#5).toInt = -1)) ∧
    (let s := divide 5#32 0#32; (s.reg 18#5).toInt = 0) ∧
    (let s := divide 0x80000000#32 0xFFFFFFFF#32; (s.reg 17#5).toInt = -2 ^ 31 ∧ (s.reg 18#5).toInt = -1) := by
  decide
theorem witness_DivRemainderHasDividendSign :
    ∃ t, exec (.div 17#5 18#5) (divide 0xFFFFFFF9#32 2#32) = .next t ∧
      ((divide 0xFFFFFFF9#32 2#32).reg 18#5).toInt ≠ 0 ∧ ((divide 0xFFFFFFF9#32 2#32).reg 17#5).toInt ≠ -2 ^ 31 :=
  ⟨_, rfl, by decide, by decide⟩
theorem witness_DivUndefinedTakesTwoFreshDraws :
    ((divide 5#32 0#32).reg 18#5).toInt = 0 ∧ ((divide 0x80000000#32 0xFFFFFFFF#32).reg 17#5).toInt = -2 ^ 31 ∧
      ((divide 0x80000000#32 0xFFFFFFFF#32).reg 18#5).toInt = -1 := by decide
/-- The first misaligned address, the last word of the region, and the first one past it. -/
theorem witness_LwLoadsWordOrFaults :
    (let s := base [(19#5, 0x10000000#32)]; (s.baseDisp 19#5 1#16).toNat % 4 ≠ 0 ∧
      ((s.baseDisp 19#5 0x100#16).toNat % 4 = 0 ∧ s.launch.memValid (s.baseDisp 19#5 0x100#16) = false) ∧
      ((s.baseDisp 19#5 0xFC#16).toNat % 4 = 0 ∧ s.launch.memValid (s.baseDisp 19#5 0xFC#16) = true)) ∧
    (let s := base [(19#5, 0x00400000#32)]; (s.baseDisp 19#5 0#16).toNat % 4 = 0 ∧
      s.launch.memValid (s.baseDisp 19#5 0#16) = true) := by decide
theorem witness_SwStoresWordOrStops :
    (let s := base [(19#5, 0x10000000#32)]; (s.baseDisp 19#5 3#16).toNat % 4 ≠ 0 ∧
      ((s.baseDisp 19#5 0xFFFC#16).toNat % 4 = 0 ∧ s.launch.memValid (s.baseDisp 19#5 0xFFFC#16) = false) ∧
      (s.launch.memValid (s.baseDisp 19#5 0#16) = true ∧ s.launch.inText (s.baseDisp 19#5 0#16) = false) ∧
      (s.launch.memValid (s.baseDisp 19#5 0xFC#16) = true ∧ s.launch.inText (s.baseDisp 19#5 0xFC#16) = false)) ∧
    (let s := base [(19#5, 0x00400000#32)]; s.launch.inText (s.baseDisp 19#5 0#16) = true ∧
      s.launch.inText (s.baseDisp 19#5 0xFC#16) = true) := by decide
theorem witness_JrJumpsToRegister :
    (base [(8#5, 0x00400006#32)]).running ∧ (base [(8#5, 0x00400006#32)]).launch.wellFormed = true ∧
      ¬ aligned ((base [(8#5, 0x00400006#32)]).reg 8#5) := by decide
/-- `beq` with equal and `bne` with different registers, at the two ends of the immediate. -/
theorem witness_BranchTargetCountsWordsFromNpc :
    ((base []).reg 17#5 = (base []).reg 18#5 ∧ ∃ t, exec (.beq 17#5 18#5 0x8000#16) (base []) = .next t) ∧
    ((base [(17#5, 1#32)]).reg 17#5 ≠ (base [(17#5, 1#32)]).reg 18#5 ∧
      ∃ t, exec (.bne 17#5 18#5 0x7FFF#16) (base [(17#5, 1#32)]) = .next t) ∧ aligned (base []).pc :=
  ⟨⟨by decide, _, rfl⟩, ⟨by decide, _, rfl⟩, by decide⟩
theorem witness_JumpTargetKeepsRegion :
    (∃ t, exec (.j 0x3FFFFFF#26) (base []) = .next t) ∧ ∃ t, exec (.jal 0#26) (base []) = .next t :=
  ⟨⟨_, rfl⟩, _, rfl⟩
/-- The farthest labels either way, and a label in the same region. -/
theorem witness_AssembledTargetsReachTheirLabels :
    branchToLabel (base []).pc 0x00420000#32 = some 0x7FFF#16 ∧
    branchToLabel (base []).pc 0x003E0004#32 = some 0x8000#16 ∧
    aligned 0x0FFFFFFC#32 ∧ (0x0FFFFFFC#32).extractLsb' 28 4 = ((base []).pc + 4#32).extractLsb' 28 4 := by decide
theorem witness_DecodedWordIsTheEncoding : decode 0x03FFF820#32 = .ok (.add 31#5 31#5 31#5) := by decide
/-- V22 to V25, and each other unused field. -/
theorem witness_NonzeroUnusedFieldsAreReserved :
    (opField 0x02324060#32 = 0#6 ∧ functField 0x02324060#32 ∈ [32#6, 34#6, 36#6, 37#6, 42#6] ∧ shamtField 0x02324060#32 ≠ 0#5) ∧
    (opField 0x02320818#32 = 0#6 ∧ functField 0x02320818#32 ∈ [24#6, 26#6] ∧ rdField 0x02320818#32 ≠ 0#5) ∧
    (opField 0x0232005A#32 = 0#6 ∧ functField 0x0232005A#32 ∈ [24#6, 26#6] ∧ shamtField 0x0232005A#32 ≠ 0#5) ∧
    (opField 0x00204010#32 = 0#6 ∧ functField 0x00204010#32 ∈ [16#6, 18#6] ∧ rsField 0x00204010#32 ≠ 0#5) ∧
    (opField 0x00014012#32 = 0#6 ∧ functField 0x00014012#32 ∈ [16#6, 18#6] ∧ rtField 0x00014012#32 ≠ 0#5) ∧
    (opField 0x00004052#32 = 0#6 ∧ functField 0x00004052#32 ∈ [16#6, 18#6] ∧ shamtField 0x00004052#32 ≠ 0#5) ∧
    (opField 0x03E10008#32 = 0#6 ∧ functField 0x03E10008#32 = 8#6 ∧ rtField 0x03E10008#32 ≠ 0#5) ∧
    (opField 0x03E00808#32 = 0#6 ∧ functField 0x03E00808#32 = 8#6 ∧ rdField 0x03E00808#32 ≠ 0#5) ∧
    (opField 0x03E00048#32 = 0#6 ∧ functField 0x03E00048#32 = 8#6 ∧ shamtField 0x03E00048#32 ≠ 0#5) := by decide
/-- No instruction's word has opcode 63, so none is `0xFFFFFFFF`. -/
theorem witness_ReservedWordFaults :
    (load0 0xFFFFFFFF#32 []).running ∧ (load0 0xFFFFFFFF#32 []).pc ≠ (load0 0xFFFFFFFF#32 []).launch.haltPc ∧
    (load0 0xFFFFFFFF#32 []).launch.inText (load0 0xFFFFFFFF#32 []).pc = true ∧
    ∀ i : Instr, encode i ≠ (load0 0xFFFFFFFF#32 []).word (load0 0xFFFFFFFF#32 []).pc := by
  refine ⟨by decide, by decide, by decide, fun i h => ?_⟩
  have hw : (load0 0xFFFFFFFF#32 []).word (load0 0xFFFFFFFF#32 []).pc = 0xFFFFFFFF#32 := by decide
  rw [hw] at h
  have hn := congrArg BitVec.toNat h
  cases i <;> simp only [encode, encodeR, encodeI, encodeJ, opLw, opSw, BitVec.toNat_ofNat] at hn <;> omega
/-- The state of `StepRunsDecodedInstruction` and of the last clause of `StepFollowsTheCycle`. -/
theorem witness_StepRunsDecodedInstruction :
    store0.running ∧ store0.pc ≠ store0.launch.haltPc ∧ store0.launch.inText store0.pc = true ∧
      decode (store0.word store0.pc) = .ok (.sw 8#5 19#5 0#16) := by decide
/-- One state for each clause: final; misaligned; unpopulated; data; a reserved word; an instruction. -/
theorem witness_StepFollowsTheCycle :
    (let s := (base []).setPc 0x00500000#32; s.running ∧ s.pc = s.launch.haltPc) ∧
    (let s := (base []).setPc 0x004000FE#32; s.running ∧ s.pc ≠ s.launch.haltPc ∧ ¬ aligned s.pc) ∧
    (let s := (base []).setPc 0x00400100#32; s.running ∧ s.pc ≠ s.launch.haltPc ∧ aligned s.pc ∧ s.launch.memValid s.pc = false) ∧
    (let s := (base []).setPc 0x10000000#32; s.running ∧ s.pc ≠ s.launch.haltPc ∧ s.launch.memValid s.pc = true ∧
      s.launch.inText s.pc = false) ∧
    (let s := (base []).setPc 0x004000FC#32; s.running ∧ s.pc ≠ s.launch.haltPc ∧ s.launch.inText s.pc = true ∧
      decode (s.word s.pc) = .error .funct) := by decide
/-- The word need not be in the program before: reset loads none. -/
theorem witness_LoadedWordRunsNext :
    0xB2680020 < 2 ^ 32 ∧ decode (BitVec.ofNat 32 0xB2680020) = .ok (.sw 8#5 19#5 32#16) := by decide
theorem witness_LaunchSetsEveryValue : 0 < 31 ∧ 30 < 31 ∧
    (State.atLaunch testLaunch { Init.zero with x := Vector.replicate 31 7#32 }).reg 31#5 = 7#32 := by decide
theorem witness_StepKeepsWf : store0.wf ∧ ∃ t, step store0 = .next t ∧ t.word 0x10000000#32 = 0x11#32 :=
  ⟨by decide, _, rfl, by decide⟩
/-- A run of one step that stores, a refused store and a refused fetch. -/
theorem witness_ProgramIsFixedForTheRun :
    (∃ t, runsTo 1 store0 t ∧ store0.launch.inText store0.pc = true) ∧ (∃ w, store0.fetch = .next w) ∧
    (base [(19#5, 0x004000FC#32)]).launch.inText ((base [(19#5, 0x004000FC#32)]).baseDisp 19#5 0#16) = true ∧
    (let s := (base []).setPc 0x100000FC#32; s.running ∧ s.pc ≠ s.launch.haltPc ∧ s.launch.memValid s.pc = true ∧
      s.launch.inText s.pc = false) :=
  ⟨⟨_, rfl, by decide⟩, ⟨_, rfl⟩, by decide, by decide⟩
theorem witness_OnlyJrMakesPcMisaligned :
    (let s := (base []).setPc 0x00400002#32; s.running ∧ s.pc ≠ s.launch.haltPc ∧ ¬ aligned s.pc) ∧
    aligned (load0 0x01000008#32 [(8#5, 0x00400006#32)]).pc ∧
    ∃ t, step (load0 0x01000008#32 [(8#5, 0x00400006#32)]) = .next t ∧ ¬ aligned t.pc :=
  ⟨by decide, by decide, _, rfl, by decide⟩
/-- `sw $t0, 0($s3)` in text and nothing else in memory, in the byte order `o`. -/
def inOrder (o : ByteOrder) : State :=
  { base [(19#5, 0x10000000#32), (8#5, 0x01020304#32)] with
    launch := { testLaunch with byteOrder := o }
    mem := Memory.writeWord o [] 0x00400000#32 0xB2680000#32 }

/-- The same words in the two byte orders, as different bytes; the step stores a word. -/
theorem witness_ByteOrderIsUnobservable :
    SameWords (inOrder .big) (inOrder .little) ∧ (inOrder .big).mem ≠ (inOrder .little).mem ∧
      (∃ t, step (inOrder .big) = .next t) ∧ aligned 0x10000000#32 ∧
      (inOrder .big).launch.byteOrder = .big ∧ (inOrder .little).launch.byteOrder = .little := by
  refine ⟨⟨rfl, rfl, rfl, rfl, rfl, rfl, rfl, rfl, rfl, rfl, fun a ha => ?_⟩, by decide, ⟨_, rfl⟩, by decide,
    rfl, rfl⟩
  show Memory.readWord .little (Memory.writeWord .little [] 0x00400000#32 0xB2680000#32) a =
    Memory.readWord .big (Memory.writeWord .big [] 0x00400000#32 0xB2680000#32) a
  by_cases h : a = 0x00400000#32
  · rw [h, Memory.readWord_writeWord_self, Memory.readWord_writeWord_self]
  · rw [Memory.readWord_writeWord_ne _ _ _ (by decide) ha h, Memory.readWord_writeWord_ne _ _ _ (by decide) ha h]
    rfl
theorem witness_StepFaultsExactlyWhenListed :
    let s := load0 0x91090002#32 [(8#5, 0x10000000#32)]
    s.running ∧ s.pc ≠ s.launch.haltPc ∧ faultOf (step s) = some (.addressErrorLoad 0x00400000#32 0x10000002#32) := by decide
theorem witness_OtherInstructionsNeverFault : (Instr.div 17#5 0#5).canFault = false ∧ (Instr.jr 8#5).canFault = false := by decide
theorem witness_RefusedExactlyWhenListedAndForEver :
    (let s := load0 0xB2680000#32 [(19#5, 0x00400000#32)]
     s.running ∧ s.pc ≠ s.launch.haltPc ∧ step s = .refused (.storeToText 0x00400000#32 0x00400000#32)) ∧
    (let s := (base []).setPc 0x10000000#32
     s.running ∧ s.pc ≠ s.launch.haltPc ∧ step s = .refused (.fetchOutsideText 0x10000000#32)) :=
  ⟨⟨by decide, by decide, rfl⟩, by decide, by decide, rfl⟩
theorem witness_FaultEndsTheRun :
    (load0 0x21080001#32 [(8#5, 0x7FFFFFFF#32)]).running ∧
      step (load0 0x21080001#32 [(8#5, 0x7FFFFFFF#32)]) = .fault (.integerOverflow 0x00400000#32) :=
  ⟨by decide, rfl⟩
theorem witness_FinalStateStays :
    ((base []).setPc 0x00500000#32).final ∧ (base []).running ∧ ¬ (base []).final := by decide
theorem witness_RegistersHoldTheirLastWrite :
    (31#5 : Reg) ≠ 0#5 ∧ (∃ t, exec (.jal 8#26) (base []) = .next t) ∧ (Instr.jal 8#26).writes ≠ some 30#5 ∧
      ∃ t, exec (.and 0#5 17#5 18#5) (base [(17#5, 1#32)]) = .next t :=
  ⟨by decide, ⟨_, rfl⟩, by decide, _, rfl⟩
/-- A register that is not read: the destination, another one; with a next state, a fault, a refusal. -/
theorem witness_InstructionsReadOnlyTheirSources :
    (8#5 ∉ (Instr.and 8#5 17#5 18#5).reads ∧ (Instr.and 8#5 17#5 18#5).writes = some 8#5 ∧
      ∃ t, exec (.and 8#5 17#5 18#5) (base []) = .next t) ∧
    (9#5 ∉ (Instr.and 8#5 17#5 18#5).reads ∧ (Instr.and 8#5 17#5 18#5).writes ≠ some 9#5) ∧
    (8#5 ∉ (Instr.lw 8#5 19#5 1#16).reads ∧
      exec (.lw 8#5 19#5 1#16) (base []) = .fault (.addressErrorLoad 0x00400000#32 1#32)) ∧
    (9#5 ∉ (Instr.sw 8#5 19#5 0#16).reads ∧ exec (.sw 8#5 19#5 0#16) (base [(19#5, 0x00400000#32)]) =
      .refused (.storeToText 0x00400000#32 0x00400000#32)) :=
  ⟨⟨by decide, by decide, _, rfl⟩, by decide, ⟨by decide, rfl⟩, by decide, rfl⟩
theorem witness_HiLoBelongToFourInstructions :
    ((Instr.mult 17#5 18#5).isMoveFromHiLo = false ∧ (Instr.mult 17#5 18#5).isMultDiv = true ∧
      ∃ t, exec (.mult 17#5 18#5) (base []) = .next t) ∧
    ((Instr.and 8#5 17#5 18#5).isMoveFromHiLo = false ∧ (Instr.and 8#5 17#5 18#5).isMultDiv = false ∧
      ∃ t, exec (.and 8#5 17#5 18#5) (base []) = .next t) ∧
    ((Instr.lw 8#5 19#5 1#16).isMoveFromHiLo = false ∧
      exec (.lw 8#5 19#5 1#16) (base []) = .fault (.addressErrorLoad 0x00400000#32 1#32)) ∧
    ((Instr.sw 8#5 19#5 0#16).isMoveFromHiLo = false ∧ exec (.sw 8#5 19#5 0#16) (base [(19#5, 0x00400000#32)]) =
      .refused (.storeToText 0x00400000#32 0x00400000#32)) :=
  ⟨⟨rfl, rfl, _, rfl⟩, ⟨rfl, rfl, _, rfl⟩, ⟨rfl, rfl⟩, rfl, rfl⟩
theorem witness_OnlySwChangesMemory :
    (Instr.lw 8#5 19#5 0#16).isSw = false ∧ ∃ t, exec (.lw 8#5 19#5 0#16) store0 = .next t := ⟨rfl, _, rfl⟩
theorem witness_StepsKeepLaunchAndBookkeeping :
    (∃ t, exec (.sw 8#5 19#5 0#16) store0 = .next t) ∧ ∃ t, step store0 = .next t := ⟨⟨_, rfl⟩, _, rfl⟩
theorem witness_OnlyUndefinedDivisionsDraw :
    ∃ t, exec (.div 17#5 18#5) (divide 5#32 0#32) = .next t ∧ t.draws ≠ (divide 5#32 0#32).draws :=
  ⟨_, rfl, by decide⟩
theorem witness_StoredWordIsReadBack :
    ¬ aligned 0x10000001#32 ∧ (aligned 0x10000100#32 ∧ (base []).launch.memValid 0x10000100#32 = false) ∧
    (base []).launch.inText 0x004000FC#32 = true ∧
    ((base []).launch.memValid 0x100000FC#32 = true ∧ (base []).launch.inText 0x100000FC#32 = false) ∧
    aligned 0x10000000#32 ∧ (0x10000000#32 : Word) ≠ 0x100000FC#32 := by decide
theorem witness_LoadSeesTheLatestStore :
    (9#5 : Reg) ≠ 0#5 ∧ ∃ t, exec (.sw 8#5 19#5 0#16) store0 = .next t := ⟨by decide, _, rfl⟩
theorem witness_JrReturnsFromJal :
    ∃ t, exec (.jal 8#26) (base []) = .next t ∧ (t.setReg 8#5 5#32).reg 31#5 = t.reg 31#5 := ⟨_, rfl, by decide⟩
theorem witness_ProductIsReadDirectlyAfterMult :
    (9#5 : Reg) ≠ 0#5 ∧ (8#5 : Reg) ≠ 0#5 ∧ (9#5 : Reg) ≠ 8#5 := by decide

end Sys2Proof.Tests
end

