-- ==== Sys2Proof/Proofs/Effects.lean ====
section
/-! SUPPORT. What a completed instruction and a completed step can have done, said once
(`exec_effect`, `step_next_cases`), and O52, which follows from it. -/

namespace Sys2Proof.Machine

/-! ## What a completed instruction can have done -/

/-- `t` is what instruction `i` can make of `s`: the kinds of effect of the read and write table
(R22), each with the instructions that have it and the guards its rule puts on it. -/
inductive Effect (i : Instr) (s : State) : State → Prop
  /-- Arithmetic, logic, comparison, `lw`, `mfhi`, `mflo`: one register is written. -/
  | writeReg (r : Reg) (v : Word) (hw : i.writes = some r) : Effect i s (s.setReg r v).advance
  /-- `jal` (R90): the link register is written, and `pc`. -/
  | link (target : Target26) (hi : i = .jal target) :
      Effect i s ((s.setReg raReg s.npc).setPc (s.jumpTarget target))
  /-- `mult`, and `div` where R77 states a result: `HI` and `LO` are written. -/
  | writeHiLo (h l : Word) (hi : i.isMultDiv = true) : Effect i s (s.setHiLo h l).advance
  /-- `div` where R77 states no result: `HI` and `LO` are drawn. -/
  | drawHiLo (rs rt : Reg) (hi : i = .div rs rt)
      (hu : divUndefined (s.reg rs).toInt (s.reg rt).toInt) : Effect i s s.drawHiLo.advance
  /-- `beq` and `bne` (R86): `pc` is written, with the branch target or `npc`. -/
  | branch (rs rt : Reg) (imm : Imm16) (a : Word) (hi : i = .beq rs rt imm ∨ i = .bne rs rt imm)
      (ha : a = s.branchTarget imm ∨ a = s.npc) : Effect i s (s.setPc a)
  /-- `j` (R89): `pc` is written. -/
  | jump (target : Target26) (hi : i = .j target) : Effect i s (s.setPc (s.jumpTarget target))
  /-- `jr` (R91): `pc` is written, with any register value. -/
  | jumpReg (rs : Reg) (hi : i = .jr rs) : Effect i s (s.setPc (s.reg rs))
  /-- `sw` (R82): a populated word outside the program is stored. -/
  | store (rt rs : Reg) (imm : Imm16) (hi : i = .sw rt rs imm)
      (hm : s.launch.memValid (s.baseDisp rs imm) = true)
      (ht : s.launch.inText (s.baseDisp rs imm) = false) :
      Effect i s (s.setWord (s.baseDisp rs imm) (s.reg rt)).advance

/-- `add`, `sub` and `addi` complete only by writing their register (R70, R71, R83). -/
theorem State.eq_of_writeIfFits_eq_next {s t : State} {rd : Reg} {exact : Int} {v : Word}
    (h : s.writeIfFits rd exact v = .next t) : t = (s.setReg rd v).advance := by
  rcases s.writeIfFits_cases rd exact v with ⟨-, he⟩ | ⟨-, he⟩ <;> rw [he] at h <;> cases h
  rfl

/-- A branch, on whatever condition, has the effect `branch` (R86). -/
theorem effect_branchIf {i : Instr} {rs rt : Reg} {imm : Imm16}
    (hi : i = .beq rs rt imm ∨ i = .bne rs rt imm) (s : State) (taken : Prop) [Decidable taken] :
    Effect i s (s.branchIf taken imm) := by
  rcases s.branchIf_cases taken imm with ⟨-, h⟩ | ⟨-, h⟩ <;> rw [h]
  · exact .branch rs rt imm _ hi (.inl rfl)
  · exact .branch rs rt imm _ hi (.inr rfl)

/-- A store completes only on a populated word outside the program (R34, R41). -/
theorem State.eq_of_storeWord_eq_next {s t : State} {ea v : Word}
    (h : s.storeWord ea v = .next t) :
    s.launch.memValid ea = true ∧ s.launch.inText ea = false ∧ t = s.setWord ea v := by
  rcases s.storeWord_cases ea v with ⟨-, he⟩ | ⟨-, -, he⟩ | ⟨-, he⟩ | ⟨hm, ht, he⟩ <;>
    rw [he] at h <;> cases h
  exact ⟨hm, ht, rfl⟩

/-- `div` completes in one of its two ways (R77). -/
theorem effect_of_execDiv {rs rt : Reg} {s t : State} (h : execDiv rs rt s = .next t) :
    Effect (.div rs rt) s t := by
  unfold execDiv at h
  by_cases hu : divUndefined (s.reg rs).toInt (s.reg rt).toInt
  · simp only [if_pos hu] at h
    cases h
    exact .drawHiLo rs rt rfl hu
  · simp only [if_neg hu] at h
    cases h
    exact .writeHiLo _ _ rfl

/-- A completed instruction has had one of its effects. -/
theorem exec_effect {i : Instr} {s t : State} (h : exec i s = .next t) : Effect i s t := by
  cases i with
  | add rd | sub rd | addi rd =>
    cases State.eq_of_writeIfFits_eq_next h
    exact .writeReg rd _ rfl
  | and rd | or rd | slt rd | slti rd | mfhi rd | mflo rd =>
    cases h
    exact .writeReg rd _ rfl
  | lw rt =>
    obtain ⟨_, -, hv⟩ := andThen_eq_next h
    cases hv
    exact .writeReg rt _ rfl
  | sw rt rs imm =>
    obtain ⟨_, hs, ha⟩ := andThen_eq_next h
    obtain ⟨hm, ht, rfl⟩ := State.eq_of_storeWord_eq_next hs
    cases ha
    exact .store rt rs imm rfl hm ht
  | mult =>
    cases h
    exact .writeHiLo _ _ rfl
  | div => exact effect_of_execDiv h
  | beq =>
    cases h
    exact effect_branchIf (.inl rfl) s _
  | bne =>
    cases h
    exact effect_branchIf (.inr rfl) s _
  | j target =>
    cases h
    exact .jump target rfl
  | jr rs =>
    cases h
    exact .jumpReg rs rfl
  | jal target =>
    cases h
    exact .link target rfl

/-! ## What a completed step can have done -/

/-- A completed step stayed at `HALT_PC` (log 1), or it ran the instruction that the program's word
at `pc` decodes to (R18). -/
theorem step_next_cases {s t : State} (h : step s = .next t) :
    s.running ∧
      ((s.pc = s.launch.haltPc ∧ t = s) ∨
        (s.pc ≠ s.launch.haltPc ∧ s.launch.inText s.pc = true ∧
          ∃ i, decode (s.word s.pc) = .ok i ∧ exec i s = .next t)) := by
  have hrun : s.running := by
    cases hf : s.faultRecord with
    | some f => rw [step_of_faultRecord hf] at h; cases h
    | none =>
      cases hr : s.refusedMark with
      | some r => rw [step_of_refusedMark hf hr] at h; cases h
      | none => exact ⟨hf, hr⟩
  refine ⟨hrun, ?_⟩
  by_cases hp : s.pc = s.launch.haltPc
  · unfold step at h
    rw [hrun.1, hrun.2] at h
    cases (if_pos hp).symm.trans h
    exact .inl ⟨hp, rfl⟩
  · rw [step_of_running hrun hp] at h
    rcases s.fetch_cases with ⟨-, he⟩ | ⟨-, -, he⟩ | ⟨-, -, he⟩ | ⟨ht, he⟩ <;> rw [he] at h
    · cases h
    · cases h
    · cases h
    · rw [andThen_next] at h
      cases hd : decode (s.word s.pc) with
      | error _ => rw [hd] at h; cases h
      | ok i => rw [hd] at h; exact .inr ⟨hp, ht, i, rfl, h⟩

/-! ## The bookkeeping -/

/-- No effect of an instruction reaches the launch parameters, the fault record or the mark. -/
theorem Effect.sameBookkeeping {i : Instr} {s t : State} (h : Effect i s t) :
    SameBookkeeping s t := by
  cases h with
  | writeReg | link | writeHiLo | drawHiLo | branch | jump | jumpReg | store => constructor <;> simp

theorem exec_sameBookkeeping {i : Instr} {s t : State} (h : exec i s = .next t) :
    SameBookkeeping s t :=
  (exec_effect h).sameBookkeeping

theorem step_sameBookkeeping {s t : State} (h : step s = .next t) : SameBookkeeping s t := by
  obtain ⟨-, ⟨-, rfl⟩ | ⟨-, -, _, -, he⟩⟩ := step_next_cases h
  · exact ⟨rfl, rfl, rfl⟩
  · exact exec_sameBookkeeping he

/-- Settles O52: a completed instruction has had one of its effects, none of which reaches the
bookkeeping, and a completed step ran an instruction or stayed. -/
theorem stepsKeepLaunchAndBookkeeping : Obligations.StepsKeepLaunchAndBookkeeping := by
  rintro s t (⟨_, he⟩ | hs)
  · exact exec_sameBookkeeping he
  · exact step_sameBookkeeping hs

end Sys2Proof.Machine
end

