-- ==== Sys2Proof/Proofs/StateFrames.lean ====
section
/-! SUPPORT. What the effects of an instruction leave unchanged, part by part of the state (R22): the
registers, HI and LO, memory and the invariant; with O39, O48 and O51, which follow from it. -/

namespace Sys2Proof.Machine

/-! ## General registers -/

/-- An effect leaves every general register alone but the one the table says is written (R22). -/
theorem Effect.reg_eq {i : Instr} {s t : State} (h : Effect i s t) {q : Reg}
    (hq : i.writes ≠ some q ∨ q = 0#5) : t.reg q = s.reg q := by
  by_cases hz : q = 0#5
  · rw [hz, State.reg_zero, State.reg_zero]
  have hwr : i.writes ≠ some q := hq.resolve_right hz
  cases h with
  | writeReg r v hw => exact State.reg_setReg_ne s v fun e => hwr (e ▸ hw)
  | link target hi =>
    subst hi
    exact State.reg_setReg_ne s _ fun e => hwr (e ▸ rfl)
  | writeHiLo | drawHiLo | branch | jump | jumpReg | store => simp

/-- A register from 1 to 31 reads what is written to it (R14). -/
theorem State.reg_setReg_self (s : State) {r : Reg} (v : Word) (h : r ≠ 0#5) :
    (s.setReg r v).reg r = v := by
  rw [State.reg_setReg, if_neg h, if_pos rfl]

/-- Settles O48: the register laws of R14, and the frame of an instruction's effects. -/
theorem registersHoldTheirLastWrite : Obligations.RegistersHoldTheirLastWrite := fun s =>
  ⟨s.reg_zero, s.setReg_zero, fun _ v h => s.reg_setReg_self v h,
    fun _ _ he _ hq => (exec_effect he).reg_eq hq⟩

/-! ## HI and LO -/

/-- Only the effects of `mult` and `div` reach HI and LO (R19). -/
theorem Effect.hi_lo_eq {i : Instr} {s t : State} (h : Effect i s t) (hi : i.isMultDiv = false) :
    t.hi = s.hi ∧ t.lo = s.lo := by
  cases h with
  | writeHiLo _ _ hmd => cases hi.symm.trans hmd
  | drawHiLo _ _ hd => subst hd; cases hi
  | writeReg | link | branch | jump | jumpReg | store => simp

/-! ## Memory -/

/-- An effect on memory is the store, by `sw`, of a populated word (R22, R30, R36). -/
theorem Effect.mem_eq_or_store {i : Instr} {s t : State} (h : Effect i s t) :
    t.mem = s.mem ∨
      i.isSw = true ∧ ∃ a v, s.launch.memValid a = true ∧ t.mem = (s.setWord a v).mem := by
  cases h with
  | store rt rs imm hi hm => exact .inr ⟨by rw [hi]; rfl, _, _, hm, rfl⟩
  | writeReg | link | writeHiLo | drawHiLo | branch | jump | jumpReg => exact .inl rfl

/-- Settles O51: the one effect on memory is that of `sw`. -/
theorem onlySwChangesMemory : Obligations.OnlySwChangesMemory := by
  intro i s t he hi
  rcases (exec_effect he).mem_eq_or_store with hm | ⟨hsw, -⟩
  · exact hm
  · cases hi.symm.trans hsw

/-! ## The invariant -/

/-- The word address of any of the four bytes of an aligned word is that of the word (R29). -/
theorem wordAddr_of_inWord {a : Word} {b : Nat} (ha : aligned a) (h : inWord a b) :
    BitVec.ofNat 32 (b / 4 * 4) = a := by
  have hb : b / 4 * 4 = a.toNat := by
    rcases h with h | h | h | h <;> rw [h, byteAddr_aligned ha (by decide)] <;> omega
  rw [hb, BitVec.ofNat_toNat, BitVec.setWidth_eq]

/-- The invariant is about memory and the launch parameters only. -/
theorem State.wf_congr {s t : State} (hm : t.mem = s.mem) (hl : t.launch = s.launch) :
    t.wf ↔ s.wf := by
  unfold State.wf
  rw [hm, hl]

/-- Storing a populated word keeps the invariant: the bytes it lists are that word's. -/
theorem State.wf_setWord {s : State} {a : Word} (v : Word) (hs : s.wf)
    (ha : s.launch.memValid a = true) : (s.setWord a v).wf := by
  obtain ⟨hcanon, hvalid, hlaunch⟩ := hs
  refine ⟨Memory.wf_writeWord _ a v hcanon, fun c hc => ?_, hlaunch⟩
  rcases Memory.mem_writeWord hc with hin | hold
  · rw [wordAddr_of_inWord (Launch.aligned_of_memValid ha) hin]
    exact ha
  · exact hvalid c hold

/-- Every effect keeps the invariant. -/
theorem Effect.wf {i : Instr} {s t : State} (h : Effect i s t) (hs : s.wf) : t.wf := by
  rcases h.mem_eq_or_store with hm | ⟨-, a, v, ha, hm⟩
  · exact (State.wf_congr hm h.sameBookkeeping.launch).mpr hs
  · exact (State.wf_congr hm h.sameBookkeeping.launch).mpr (State.wf_setWord v hs ha)

/-- Settles O39: a completed step stayed, or ran an instruction, whose effect keeps the invariant. -/
theorem stepKeepsWf : Obligations.StepKeepsWf := by
  intro s t hs h
  obtain ⟨-, ⟨-, rfl⟩ | ⟨-, -, _, -, he⟩⟩ := step_next_cases h
  · exact hs
  · exact (exec_effect he).wf hs

end Sys2Proof.Machine
end

