-- ==== Sys2Proof/Proofs/Cycle.lean ====
section
/-! SUPPORT. The start of a run and the instruction cycle (R18, R27): what the fetch and the step answer
under each of the cycle's checks, and O34, O35 and O37. -/

namespace Sys2Proof.Machine

/-! ## The start of a run -/

/-- Register `k + 1` stands in cell `k` (R13). -/
theorem State.reg_ofNat_succ (s : State) {k : Nat} (h : k < 31) :
    s.reg (BitVec.ofNat 5 (k + 1)) = s.x[k] := by
  have hn : (BitVec.ofNat 5 (k + 1)).toNat = k + 1 := by
    rw [BitVec.toNat_ofNat]
    omega
  have hz : BitVec.ofNat 5 (k + 1) ≠ 0#5 := fun e => by
    rw [e] at hn
    cases hn
  simp [State.reg, hz, hn]

/-- Settles O37: the launch state is made of the launch and INIT, field by field (R27). -/
theorem launchSetsEveryValue : Obligations.LaunchSetsEveryValue := fun l init =>
  ⟨rfl, fun _ h => (State.atLaunch l init).reg_ofNat_succ h, rfl, rfl, rfl, fun _ => rfl, rfl, rfl, rfl⟩

/-! ## A final run -/

/-- At `HALT_PC` the step answers with the state itself (log 1). -/
theorem step_of_final {s : State} (h : s.final) : step s = .next s := by
  obtain ⟨hpc, hfault, hrefused⟩ := h
  unfold step
  rw [hfault, hrefused]
  exact if_pos hpc

/-- Every run from a final state ends in it (R113). -/
theorem runsTo_of_final {s : State} (h : s.final) (k : Nat) (t : State) : runsTo k s t ↔ t = s := by
  induction k with
  | zero => rw [runsTo_zero, eq_comm]
  | succ k ih =>
    rw [runsTo_succ, step_of_final h, ← ih]
    constructor
    · rintro ⟨_, hu, hk⟩
      cases hu
      exact hk
    · exact fun hk => ⟨s, rfl, hk⟩

/-! ## The fetch, check by check (R18 steps 2 to 5) -/

theorem State.fetch_of_misaligned {s : State} (h : ¬ aligned s.pc) :
    s.fetch = .fault (.addressErrorFetch s.pc s.pc) :=
  if_pos h

theorem State.fetch_of_unpopulated {s : State} (ha : aligned s.pc)
    (hm : s.launch.memValid s.pc = false) : s.fetch = .fault (.accessFault s.pc s.pc) :=
  (if_neg (not_not_intro ha)).trans (if_pos hm)

theorem State.fetch_of_data {s : State} (hm : s.launch.memValid s.pc = true)
    (ht : s.launch.inText s.pc = false) : s.fetch = .refused (.fetchOutsideText s.pc) := by
  have ha : aligned s.pc := Launch.aligned_of_memValid hm
  simp [State.fetch, ha, hm, ht]

theorem State.fetch_of_inText {s : State} (ht : s.launch.inText s.pc = true) :
    s.fetch = .next (s.word s.pc) := by
  have hm : s.launch.memValid s.pc = true := Launch.memValid_of_inText ht
  have ha : aligned s.pc := Launch.aligned_of_memValid hm
  simp [State.fetch, ha, hm, ht]

/-! ## The step -/

/-- The step at a program word that decodes executes its instruction (R18 steps 5 to 8). -/
theorem step_of_decode_ok {s : State} {i : Instr} (hr : s.running) (hp : s.pc ≠ s.launch.haltPc)
    (ht : s.launch.inText s.pc = true) (hd : decode (s.word s.pc) = .ok i) : step s = exec i s := by
  rw [step_of_running hr hp, State.fetch_of_inText ht, andThen_next, hd]

/-- The step at a reserved program word faults (R18 step 6, R94). -/
theorem step_of_decode_error {s : State} {e : Reserved} (hr : s.running)
    (hp : s.pc ≠ s.launch.haltPc) (ht : s.launch.inText s.pc = true)
    (hd : decode (s.word s.pc) = .error e) :
    step s = .fault (.reservedInstruction s.pc (s.word s.pc)) := by
  rw [step_of_running hr hp, State.fetch_of_inText ht, andThen_next, hd]

/-- Settles O34: it is the case of the cycle in which the word decodes. -/
theorem stepRunsDecodedInstruction : Obligations.StepRunsDecodedInstruction :=
  fun _ _ => step_of_decode_ok

/-- Settles O35: each check of the cycle decides what the fetch answers, and so the step. -/
theorem stepFollowsTheCycle : Obligations.StepFollowsTheCycle := by
  intro s hr
  refine ⟨fun hp => ?final, fun hp ha => ?misaligned, fun hp ha hm => ?unpopulated,
    fun hp hm ht => ?data, fun hp ht => ?text⟩
  case final =>
    have hf : s.final := ⟨hp, hr⟩
    exact ⟨hf, fun k t => (runsTo_of_final hf k t).mp⟩
  case misaligned => rw [step_of_running hr hp, State.fetch_of_misaligned ha, andThen_fault]
  case unpopulated => rw [step_of_running hr hp, State.fetch_of_unpopulated ha hm, andThen_fault]
  case data => rw [step_of_running hr hp, State.fetch_of_data hm ht, andThen_refused]
  case text => exact ⟨fun _ => step_of_decode_error hr hp ht, fun _ => step_of_decode_ok hr hp ht⟩

end Sys2Proof.Machine
end

