-- ==== Sys2Proof/Proofs/Noninterference.lean ====
section
/-! SUPPORT. What no instruction depends on (R19, R22): a write of a register that it does not read, or of HI
and LO where it does not read them, commutes with the instruction, up to what it writes itself. Each
shared operation first, then `exec`; and O49 and O50. -/

namespace Sys2Proof.Machine

/-! ## An update of the next state -/

/-- The outcome `o`, with `u` done to its next state if it is one. -/
def mapNext (u : State → State) (o : Host.Outcome State Fault Refusal) :
    Host.Outcome State Fault Refusal :=
  andThen o fun t => .next (u t)

@[simp] theorem mapNext_next (u : State → State) (t : State) : mapNext u (.next t) = .next (u t) := rfl

@[simp] theorem mapNext_fault (u : State → State) (f : Fault) : mapNext u (.fault f) = .fault f := rfl

@[simp] theorem mapNext_refused (u : State → State) (r : Refusal) :
    mapNext u (.refused r) = .refused r := rfl

theorem mapNext_ite (u : State → State) (c : Prop) [Decidable c]
    (o p : Host.Outcome State Fault Refusal) :
    mapNext u (if c then o else p) = if c then mapNext u o else mapNext u p :=
  apply_ite (mapNext u) c o p

theorem mapNext_andThen (u : State → State) {α : Type} (o : Host.Outcome α Fault Refusal)
    (k : α → Host.Outcome State Fault Refusal) :
    mapNext u (andThen o k) = andThen o fun a => mapNext u (k a) := by
  cases o <;> rfl

theorem andThen_mapNext (u : State → State) (o : Host.Outcome State Fault Refusal)
    (k : State → Host.Outcome State Fault Refusal) :
    andThen (mapNext u o) k = andThen o fun t => k (u t) := by
  cases o <;> rfl

/-- What an outcome gives once another is known to be it up to an update of the next state. -/
theorem answers_of_eq_mapNext {u : State → State} {o p : Host.Outcome State Fault Refusal}
    (h : p = mapNext u o) :
    (∀ t, o = .next t → p = .next (u t)) ∧ (∀ f, o = .fault f → p = .fault f) ∧
      (∀ q, o = .refused q → p = .refused q) := by
  subst h
  refine ⟨?_, ?_, ?_⟩ <;> rintro a rfl <;> rfl

/-! ## A register write before an operation -/

/-- Two registers from 1 to 31 have two cells. -/
theorem regCell_ne {r q : Reg} (hr : r ≠ 0#5) (hq : q ≠ 0#5) (h : q ≠ r) :
    r.toNat - 1 ≠ q.toNat - 1 := by
  bv_omega

/-- The later of two writes of one register counts. -/
theorem State.setReg_setReg_self (s : State) (r : Reg) (v w : Word) :
    (s.setReg r v).setReg r w = s.setReg r w := by
  unfold State.setReg
  by_cases h : r = 0#5 <;> simp [h]

/-- Writes of two registers commute. -/
theorem State.setReg_setReg_comm (s : State) {r q : Reg} (v w : Word) (h : q ≠ r) :
    (s.setReg r v).setReg q w = (s.setReg q w).setReg r v := by
  unfold State.setReg
  by_cases hr : r = 0#5
  · simp [hr]
  by_cases hq : q = 0#5
  · simp [hq]
  simp [hr, hq, Vector.set_comm _ _ (regCell_ne hr hq h)]

/-- `x[r] <- v`, but where `r` is the destination `dest`. -/
def State.setRegUnless (dest : Option Reg) (r : Reg) (v : Word) (s : State) : State :=
  if dest = some r then s else s.setReg r v

/-- Writing `q` after `r`: the write of `r` is seen but where `q` is `r`. -/
theorem State.setReg_setReg (s : State) (r q : Reg) (v w : Word) :
    (s.setReg r v).setReg q w = State.setRegUnless (some q) r v (s.setReg q w) := by
  unfold State.setRegUnless
  by_cases h : q = r
  · subst h
    rw [if_pos rfl, State.setReg_setReg_self]
  · rw [if_neg (by simpa using h), State.setReg_setReg_comm s v w h]

theorem State.advance_setReg_setReg (s : State) (r q : Reg) (v w : Word) :
    ((s.setReg r v).setReg q w).advance = State.setRegUnless (some q) r v (s.setReg q w).advance := by
  rw [State.setReg_setReg]
  exact apply_ite State.advance (some q = some r) _ _

theorem State.setPc_setReg_setReg (s : State) (r q : Reg) (v w a : Word) :
    ((s.setReg r v).setReg q w).setPc a =
      State.setRegUnless (some q) r v ((s.setReg q w).setPc a) := by
  rw [State.setReg_setReg]
  exact apply_ite (State.setPc · a) (some q = some r) _ _

/-! ## The shared operations after an update that they do not see -/

section
variable {u w : State → State} {s : State} (hpc : (u s).pc = s.pc)
include hpc

/-- The ending of `add`, `sub` and `addi` sees nothing of the state but `pc`. -/
theorem State.writeIfFits_update {rd : Reg} {v : Word}
    (hset : ((u s).setReg rd v).advance = w (s.setReg rd v).advance) (exact : Int) :
    (u s).writeIfFits rd exact v = mapNext w (s.writeIfFits rd exact v) := by
  unfold State.writeIfFits
  rw [mapNext_ite, hset, State.raise_eq, State.raise_eq, hpc, mapNext_next, mapNext_fault]

/-- A store sees nothing of the state but `pc` and the launch parameters. -/
theorem State.storeWord_update (hl : (u s).launch = s.launch)
    (hset : ∀ a v, (u s).setWord a v = u (s.setWord a v)) (ea v : Word) :
    (u s).storeWord ea v = mapNext u (s.storeWord ea v) := by
  unfold State.storeWord
  simp only [mapNext_ite, State.raise_eq, mapNext_next, mapNext_fault, mapNext_refused, hpc, hl, hset]

/-- A branch sees nothing of the state but `pc`. -/
theorem State.branchIf_update (hset : ∀ a, (u s).setPc a = u (s.setPc a)) (taken : Prop)
    [Decidable taken] (imm : Imm16) : (u s).branchIf taken imm = u (s.branchIf taken imm) := by
  unfold State.branchIf State.advance State.branchTarget State.npc
  rw [hpc, hset, hset, apply_ite u]

end

/-! ## A register that is not read (R22) -/

/-- Writing a register that the instruction does not read, before it or after it, comes to the same,
but where it is the destination. -/
theorem exec_setReg {i : Instr} {r : Reg} (hr : r ∉ i.reads) (s : State) (v : Word) :
    exec i (s.setReg r v) = mapNext (State.setRegUnless i.writes r v) (exec i s) := by
  have hread : ∀ q ∈ i.reads, (s.setReg r v).reg q = s.reg q := fun q hq =>
    State.reg_setReg_ne s v (ne_of_mem_of_not_mem hq hr)
  cases i with simp only [Instr.reads, List.forall_mem_cons] at hread
  | add rd | sub rd | addi rd =>
    simp only [exec, execAdd, execSub, execAddi, hread]
    exact State.writeIfFits_update (u := (State.setReg · r v)) rfl (s.advance_setReg_setReg r rd v _) _
  | and | or | slt | slti | mfhi | mflo =>
    simp only [exec, execAnd, execOr, execSlt, execSlti, execMfhi, execMflo, hread,
      State.advance_setReg_setReg]
    rfl
  | lw =>
    simp only [exec, execLw, State.baseDisp, hread, mapNext_andThen, State.advance_setReg_setReg]
    rfl
  | sw =>
    simp only [exec, execSw, State.baseDisp, hread]
    rw [State.storeWord_update (u := (State.setReg · r v)) rfl rfl fun _ _ => rfl, andThen_mapNext,
      mapNext_andThen]
    rfl
  | mult =>
    simp only [exec, execMult, hread]
    rfl
  | div =>
    simp only [exec, execDiv, hread, mapNext_ite]
    rfl
  | beq | bne =>
    simp only [exec, execBeq, execBne, hread]
    exact congrArg _ (State.branchIf_update (u := (State.setReg · r v)) rfl (fun _ => rfl) _ _)
  | jr =>
    simp only [exec, execJr, hread]
    rfl
  | j => rfl
  | jal => exact congrArg _ (s.setPc_setReg_setReg r raReg v _ _)

/-- Settles O49: the write done before the instruction is the write done after it (`exec_setReg`). -/
theorem instructionsReadOnlyTheirSources : Obligations.InstructionsReadOnlyTheirSources := by
  intro i s r v hr
  obtain ⟨hnext, hfault, hrefused⟩ := answers_of_eq_mapNext (exec_setReg hr s v)
  exact ⟨fun t ht => ⟨fun hw => (hnext t ht).trans (congrArg _ (if_pos hw)),
    fun hw => (hnext t ht).trans (congrArg _ (if_neg hw))⟩, hfault, hrefused⟩

/-! ## HI and LO (R19) -/

/-- `HI <- h; LO <- l`, but where the instruction writes them itself. -/
def State.setHiLoUnless (written : Bool) (h l : Word) (s : State) : State :=
  if written then s else s.setHiLo h l

/-- Writing HI and LO before an instruction that does not read them, or after it, comes to the same,
but where the instruction writes them. -/
theorem exec_setHiLo {i : Instr} (hi : i.isMoveFromHiLo = false) (s : State) (h l : Word) :
    exec i (s.setHiLo h l) = mapNext (State.setHiLoUnless i.isMultDiv h l) (exec i s) := by
  cases i with
  | mfhi | mflo => cases hi
  | add | sub | addi => exact State.writeIfFits_update (u := (State.setHiLo · h l)) rfl rfl _
  | and | or | slt | slti | mult | j | jr | jal => rfl
  | lw =>
    simp only [exec, execLw, mapNext_andThen]
    rfl
  | sw =>
    simp only [exec, execSw]
    rw [State.storeWord_update (u := (State.setHiLo · h l)) rfl rfl fun _ _ => rfl, andThen_mapNext,
      mapNext_andThen]
    rfl
  | div =>
    simp only [exec, execDiv, mapNext_ite]
    rfl
  | beq | bne =>
    exact congrArg _ (State.branchIf_update (u := (State.setHiLo · h l)) rfl (fun _ => rfl) _ _)

/-- Settles O50: no effect but that of `mult` and `div` reaches HI and LO, and writing them before the
instruction is writing them after it (`exec_setHiLo`). -/
theorem hiLoBelongToFourInstructions : Obligations.HiLoBelongToFourInstructions := by
  refine fun i s => ⟨fun t ht => (exec_effect ht).hi_lo_eq, fun h l hi => ?_⟩
  obtain ⟨hnext, hfault, hrefused⟩ := answers_of_eq_mapNext (exec_setHiLo hi s h l)
  exact ⟨fun t ht => ⟨fun hw => (hnext t ht).trans (congrArg _ (if_pos hw)),
    fun hw => (hnext t ht).trans (congrArg _ (if_neg (by simp [hw])))⟩, hfault, hrefused⟩

end Sys2Proof.Machine
end

