-- ==== Sys2Proof/Proofs/StoredWords.lean ====
section
/-! SUPPORT. Checked loads and stores (R33, R34, R41): what they answer under each of their checks, and which
words a store and a step leave unchanged; with O54, O55 and O40, which follow from it. -/

namespace Sys2Proof.Machine

/-! ## A checked access, check by check (R33, R34) -/

theorem State.storeWord_of_misaligned {s : State} {a : Word} (v : Word) (h : ¬ aligned a) :
    s.storeWord a v = .fault (.addressErrorStore s.pc a) :=
  if_pos h

theorem State.storeWord_of_unpopulated {s : State} {a : Word} (v : Word) (ha : aligned a)
    (hm : s.launch.memValid a = false) : s.storeWord a v = .fault (.accessFault s.pc a) :=
  (if_neg (not_not_intro ha)).trans (if_pos hm)

theorem State.storeWord_of_inText {s : State} {a : Word} (v : Word)
    (ht : s.launch.inText a = true) : s.storeWord a v = .refused (.storeToText s.pc a) := by
  have hm : s.launch.memValid a = true := Launch.memValid_of_inText ht
  have ha : aligned a := Launch.aligned_of_memValid hm
  simp [State.storeWord, ha, hm, ht]

theorem State.storeWord_of_data {s : State} {a : Word} (v : Word) (hm : s.launch.memValid a = true)
    (ht : s.launch.inText a = false) : s.storeWord a v = .next (s.setWord a v) := by
  have ha : aligned a := Launch.aligned_of_memValid hm
  simp [State.storeWord, ha, hm, ht]

theorem State.loadWord_of_word {s : State} {a v : Word} (hm : s.launch.memValid a = true)
    (hw : s.word a = v) : s.loadWord a = .next v := by
  have ha : aligned a := Launch.aligned_of_memValid hm
  simp [State.loadWord, ha, hm, hw]

/-! ## The words after a store (R34) -/

theorem State.word_setWord_self (s : State) (a v : Word) : (s.setWord a v).word a = v :=
  Memory.readWord_writeWord_self _ _ a v

theorem State.word_setWord_ne (s : State) (v : Word) {a b : Word} (ha : aligned a) (hb : aligned b)
    (h : b ≠ a) : (s.setWord a v).word b = s.word b :=
  Memory.readWord_writeWord_ne _ _ v ha hb h

/-- Settles O54: the store check by check, and the words after it. -/
theorem storedWordIsReadBack : Obligations.StoredWordIsReadBack := fun s a v =>
  ⟨State.storeWord_of_misaligned v, State.storeWord_of_unpopulated v, State.storeWord_of_inText v,
    fun hm ht => ⟨s.setWord a v, State.storeWord_of_data v hm ht,
      State.loadWord_of_word hm (s.word_setWord_self a v), s.word_setWord_self a v,
      fun _ hb hne => s.word_setWord_ne v (Launch.aligned_of_memValid hm) hb hne⟩⟩

/-! ## The two instructions -/

/-- `sw` completes only by storing a populated word outside the program (R82). -/
theorem eq_of_exec_sw_eq_next {rt rs : Reg} {imm : Imm16} {s t : State}
    (h : exec (.sw rt rs imm) s = .next t) :
    s.launch.memValid (s.baseDisp rs imm) = true ∧ s.launch.inText (s.baseDisp rs imm) = false ∧
      t = (s.setWord (s.baseDisp rs imm) (s.reg rt)).advance := by
  obtain ⟨_, hs, ha⟩ := andThen_eq_next h
  obtain ⟨hm, ht, rfl⟩ := State.eq_of_storeWord_eq_next hs
  cases ha
  exact ⟨hm, ht, rfl⟩

/-- `sw` into the program is refused (R41). -/
theorem exec_sw_of_inText {s : State} {rs : Reg} {imm : Imm16} (rt : Reg)
    (h : s.launch.inText (s.baseDisp rs imm) = true) :
    exec (.sw rt rs imm) s = .refused (.storeToText s.pc (s.baseDisp rs imm)) := by
  simp only [exec, execSw, State.storeWord_of_inText _ h, andThen_refused]

/-- `lw` completes with the value that the load of its effective address gives (R81). -/
theorem exec_lw_of_loadWord {s : State} {rs : Reg} {imm : Imm16} {v : Word} (rt : Reg)
    (h : s.loadWord (s.baseDisp rs imm) = .next v) :
    exec (.lw rt rs imm) s = .next (s.setReg rt v).advance := by
  simp only [exec, execLw, h, andThen_next]

/-- Settles O55: `sw` leaves the base register alone, so `lw` loads the word just stored. -/
theorem loadSeesTheLatestStore : Obligations.LoadSeesTheLatestStore := by
  intro rt rt' rs imm s t hsw hrt'
  obtain ⟨hm, -, rfl⟩ := eq_of_exec_sw_eq_next hsw
  exact ⟨_, exec_lw_of_loadWord rt' (State.loadWord_of_word hm
    (s.word_setWord_self (s.baseDisp rs imm) (s.reg rt))), State.reg_setReg_self _ _ hrt'⟩

/-! ## The program (R41) -/

/-- No effect of an instruction reaches a word of the program: `sw` stores outside it. -/
theorem Effect.word_eq_of_inText {i : Instr} {s t : State} (h : Effect i s t) {a : Word}
    (ha : s.launch.inText a = true) : t.word a = s.word a := by
  cases h with
  | store rt rs imm hi hm ht =>
    have hne : a ≠ s.baseDisp rs imm := by
      rintro rfl
      exact absurd ha (by simp [ht])
    exact s.word_setWord_ne _ (Launch.aligned_of_memValid hm)
      (Launch.aligned_of_memValid (Launch.memValid_of_inText ha)) hne
  | writeReg | link | writeHiLo | drawHiLo | branch | jump | jumpReg => rfl

theorem step_word_eq_of_inText {s t : State} (h : step s = .next t) {a : Word}
    (ha : s.launch.inText a = true) : t.word a = s.word a := by
  obtain ⟨-, ⟨-, rfl⟩ | ⟨-, -, _, -, he⟩⟩ := step_next_cases h
  · rfl
  · exact (exec_effect he).word_eq_of_inText ha

/-- Any number of steps keeps the launch parameters and every word of the program. -/
theorem runsTo_keeps_program {k : Nat} {s t : State} (h : runsTo k s t) :
    t.launch = s.launch ∧ ∀ a, s.launch.inText a = true → t.word a = s.word a := by
  induction k generalizing s with
  | zero =>
    cases (runsTo_zero s t).mp h
    exact ⟨rfl, fun _ _ => rfl⟩
  | succ k ih =>
    obtain ⟨u, hstep, hrun⟩ := (runsTo_succ k s t).mp h
    obtain ⟨hlaunch, hwords⟩ := ih hrun
    have hu : u.launch = s.launch := (step_sameBookkeeping hstep).launch
    refine ⟨hlaunch.trans hu, fun a ha => ?_⟩
    calc t.word a = u.word a := hwords a (hu ▸ ha)
      _ = s.word a := step_word_eq_of_inText hstep ha

/-- The fetch answers only with a word of the program. -/
theorem State.eq_word_of_fetch_eq_next {s : State} {w : Word} (h : s.fetch = .next w) :
    s.launch.inText s.pc = true ∧ w = s.word s.pc := by
  rcases s.fetch_cases with ⟨-, he⟩ | ⟨-, -, he⟩ | ⟨-, -, he⟩ | ⟨ht, he⟩ <;> rw [he] at h <;> cases h
  exact ⟨ht, rfl⟩

/-- Settles O40: the two refusals, and by induction on the steps that a run keeps the program. -/
theorem programIsFixedForTheRun : Obligations.ProgramIsFixedForTheRun := by
  refine ⟨fun _ rt _ _ => exec_sw_of_inText rt, fun s hr hp hm ht => ?fetch, fun k s t h => ?run⟩
  case fetch => rw [step_of_running hr hp, State.fetch_of_data hm ht, andThen_refused]
  case run =>
    obtain ⟨hlaunch, hwords⟩ := runsTo_keeps_program h
    refine ⟨hlaunch, hwords, fun w hw => ?_⟩
    obtain ⟨ht, rfl⟩ := State.eq_word_of_fetch_eq_next hw
    have hpc : s.launch.inText t.pc = true := hlaunch ▸ ht
    exact ⟨hpc, hwords t.pc hpc⟩

end Sys2Proof.Machine
end

