-- ==== Sys2Proof/Proofs/ByteOrder.lean ====
section
/-! SUPPORT. The byte order is unobservable (R31): `SameWords` is a simulation. Each operation of the
state keeps it or reads the same through it, then each checked operation, `exec` and `step`; and O42. -/

namespace Sys2Proof.Machine

/-! ## The operations of the state -/

namespace SameWords

variable {s t : State} (h : SameWords s t)
include h

theorem reg_eq (r : Reg) : t.reg r = s.reg r := by
  unfold State.reg
  rw [h.x]

theorem baseDisp_eq (rs : Reg) (imm : Imm16) : t.baseDisp rs imm = s.baseDisp rs imm := by
  unfold State.baseDisp
  rw [h.reg_eq]

theorem branchTarget_eq (imm : Imm16) : t.branchTarget imm = s.branchTarget imm := by
  unfold State.branchTarget
  rw [State.npc_eq, State.npc_eq, h.pc]

theorem jumpTarget_eq (target : Target26) : t.jumpTarget target = s.jumpTarget target := by
  unfold State.jumpTarget
  rw [State.npc_eq, State.npc_eq, h.pc]

theorem memValid_eq (a : Word) : t.launch.memValid a = s.launch.memValid a := by
  unfold Launch.memValid
  rw [h.map]

theorem inText_eq (a : Word) : t.launch.inText a = s.launch.inText a := by
  unfold Launch.inText
  rw [h.map]

theorem setReg (r : Reg) (v : Word) : SameWords (s.setReg r v) (t.setReg r v) :=
  { h with x := by unfold State.setReg; rw [h.x] }

theorem setPc (a : Word) : SameWords (s.setPc a) (t.setPc a) :=
  { h with pc := rfl }

theorem advance : SameWords s.advance t.advance :=
  { h with pc := congrArg (· + 4#32) h.pc }

theorem setHiLo (hi lo : Word) : SameWords (s.setHiLo hi lo) (t.setHiLo hi lo) :=
  { h with hi := rfl, lo := rfl }

theorem drawHiLo : SameWords s.drawHiLo t.drawHiLo :=
  { h with
    hi := congrArg Config.any32 h.draws
    lo := congrArg (fun n => Config.any32 (n + 1)) h.draws
    draws := congrArg (· + 2) h.draws }

/-- A store of the same word, in each state's own byte order, keeps the words the same. -/
theorem setWord {a : Word} (ha : aligned a) (v : Word) : SameWords (s.setWord a v) (t.setWord a v) :=
  { h with
    words := fun b hb => by
      by_cases hab : b = a
      · rw [hab, State.word_setWord_self, State.word_setWord_self]
      · rw [State.word_setWord_ne t v ha hb hab, State.word_setWord_ne s v ha hb hab, h.words b hb] }

theorem branchIf (taken : Prop) [Decidable taken] (imm : Imm16) :
    SameWords (s.branchIf taken imm) (t.branchIf taken imm) := by
  unfold State.branchIf
  rw [h.branchTarget_eq]
  by_cases hc : taken
  · rw [if_pos hc, if_pos hc]
    exact h.setPc _
  · rw [if_neg hc, if_neg hc]
    exact h.advance

theorem final_iff : t.final ↔ s.final := by
  unfold State.final
  rw [h.pc, h.haltPc, h.faultRecord, h.refusedMark]

/-! ## The checked operations -/

theorem loadWord_eq (a : Word) : t.loadWord a = s.loadWord a := by
  unfold State.loadWord
  by_cases ha : aligned a
  · rw [h.memValid_eq, h.words a ha]
    simp only [State.raise_eq, h.pc]
  · rw [if_pos ha, if_pos ha, State.raise_eq, State.raise_eq, h.pc]

theorem fetch_eq : t.fetch = s.fetch := by
  rcases s.fetch_cases with ⟨ha, he⟩ | ⟨ha, hm, he⟩ | ⟨hm, ht, he⟩ | ⟨ht, he⟩ <;> rw [he]
  · rw [State.fetch_of_misaligned (h.pc ▸ ha), h.pc]
  · rw [State.fetch_of_unpopulated (h.pc ▸ ha) (by rw [h.memValid_eq, h.pc, hm]), h.pc]
  · rw [State.fetch_of_data (by rw [h.memValid_eq, h.pc, hm]) (by rw [h.inText_eq, h.pc, ht]), h.pc]
  · have ha : aligned s.pc := Launch.aligned_of_memValid (Launch.memValid_of_inText ht)
    rw [State.fetch_of_inText (by rw [h.inText_eq, h.pc, ht]), h.pc, h.words _ ha]

theorem sameOutcome_storeWord (a v : Word) : sameOutcome (s.storeWord a v) (t.storeWord a v) := by
  rcases s.storeWord_cases a v with ⟨ha, he⟩ | ⟨ha, hm, he⟩ | ⟨ht, he⟩ | ⟨hm, ht, he⟩ <;> rw [he]
  · rw [State.storeWord_of_misaligned v ha, h.pc]
    rfl
  · rw [State.storeWord_of_unpopulated v ha ((h.memValid_eq a).trans hm), h.pc]
    rfl
  · rw [State.storeWord_of_inText v ((h.inText_eq a).trans ht), h.pc]
    rfl
  · rw [State.storeWord_of_data v ((h.memValid_eq a).trans hm) ((h.inText_eq a).trans ht)]
    exact h.setWord (Launch.aligned_of_memValid hm) v

theorem sameOutcome_writeIfFits (rd : Reg) (exact : Int) (v : Word) :
    sameOutcome (s.writeIfFits rd exact v) (t.writeIfFits rd exact v) := by
  unfold State.writeIfFits
  by_cases hf : fitsSigned exact
  · rw [if_pos hf, if_pos hf]
    exact (h.setReg rd v).advance
  · rw [if_neg hf, if_neg hf, State.raise_eq, State.raise_eq, h.pc]
    rfl

end SameWords

/-! ## Sequencing -/

/-- Continuing in corresponding ways from the same value gives corresponding outcomes. -/
theorem sameOutcome_andThen {α : Type} (o : Host.Outcome α Fault Refusal)
    {k l : α → Host.Outcome State Fault Refusal} (h : ∀ a, sameOutcome (k a) (l a)) :
    sameOutcome (andThen o k) (andThen o l) := by
  cases o with
  | next a => exact h a
  | fault | refused => rfl

/-- Going on to the next instruction from corresponding outcomes gives corresponding outcomes. -/
theorem sameOutcome_andThen_advance {o p : Host.Outcome State Fault Refusal} (h : sameOutcome o p) :
    sameOutcome (andThen o fun s => .next s.advance) (andThen p fun t => .next t.advance) := by
  cases o <;> cases p
  case next.next => exact SameWords.advance h
  all_goals exact h

/-! ## Instructions and steps -/

/-- Each instruction takes states with the same words to corresponding outcomes. -/
theorem sameOutcome_exec {s t : State} (h : SameWords s t) (i : Instr) :
    sameOutcome (exec i s) (exec i t) := by
  cases i with
  | add | sub | addi =>
    simp only [exec, execAdd, execSub, execAddi, h.reg_eq]
    exact h.sameOutcome_writeIfFits _ _ _
  | and | or | slt | slti | mfhi | mflo =>
    simp only [exec, execAnd, execOr, execSlt, execSlti, execMfhi, execMflo, h.reg_eq, h.hi, h.lo]
    exact (h.setReg _ _).advance
  | mult =>
    simp only [exec, execMult, h.reg_eq]
    exact (h.setHiLo _ _).advance
  | div rs rt =>
    simp only [exec, execDiv, h.reg_eq]
    by_cases hu : divUndefined (s.reg rs).toInt (s.reg rt).toInt
    · rw [if_pos hu, if_pos hu]
      exact h.drawHiLo.advance
    · rw [if_neg hu, if_neg hu]
      exact (h.setHiLo _ _).advance
  | lw =>
    simp only [exec, execLw, h.baseDisp_eq, h.loadWord_eq]
    exact sameOutcome_andThen _ fun v => (h.setReg _ v).advance
  | sw =>
    simp only [exec, execSw, h.baseDisp_eq, h.reg_eq]
    exact sameOutcome_andThen_advance (h.sameOutcome_storeWord _ _)
  | beq | bne =>
    simp only [exec, execBeq, execBne, h.reg_eq]
    exact h.branchIf _ _
  | j =>
    simp only [exec, execJ, h.jumpTarget_eq]
    exact h.setPc _
  | jal =>
    simp only [exec, execJal, h.jumpTarget_eq, State.npc_eq, h.pc]
    exact (h.setReg _ _).setPc _
  | jr =>
    simp only [exec, execJr, h.reg_eq]
    exact h.setPc _

/-- `SameWords` is a simulation: states with the same words take corresponding steps. -/
theorem sameOutcome_step {s t : State} (h : SameWords s t) : sameOutcome (step s) (step t) := by
  cases hf : s.faultRecord with
  | some f =>
    rw [step_of_faultRecord hf, step_of_faultRecord (h.faultRecord.trans hf)]
    rfl
  | none =>
    cases hr : s.refusedMark with
    | some r =>
      rw [step_of_refusedMark hf hr,
        step_of_refusedMark (h.faultRecord.trans hf) (h.refusedMark.trans hr)]
      rfl
    | none =>
      by_cases hp : s.pc = s.launch.haltPc
      · rw [step_of_final ⟨hp, hf, hr⟩, step_of_final (h.final_iff.mpr ⟨hp, hf, hr⟩)]
        exact h
      · have htp : t.pc ≠ t.launch.haltPc := by rwa [h.pc, h.haltPc]
        rw [step_of_running ⟨hf, hr⟩ hp,
          step_of_running ⟨h.faultRecord.trans hf, h.refusedMark.trans hr⟩ htp, h.fetch_eq]
        refine sameOutcome_andThen _ fun w => ?_
        cases decode w with
        | ok i => exact sameOutcome_exec h i
        | error _ => exact congrArg (Fault.reservedInstruction · w) h.pc

/-! ## The layout -/

theorem byteAddr_inj (a : Word) {j k : Nat} (hj : j < 4) (hk : k < 4) :
    byteAddr a j = byteAddr a k ↔ j = k :=
  ⟨byteAddr_injective a hj hk, congrArg _⟩

/-- Byte `k` of the word at `a` is byte `k` of what was stored there (R31). -/
theorem Memory.readByte_writeWord_self (o : ByteOrder) (m : Memory) (a v : Word) {k : Nat}
    (hk : k < 4) :
    Memory.readByte (Memory.writeWord o m a v) (byteAddr a k) = byteOfWord o v k := by
  simp only [Memory.readByte_writeWord, byteAddr_inj a hk, Nat.reduceLT]
  interval_cases k <;> rfl

/-- Settles O42: the simulation, the frame of a step, and the layout of a stored word in each order. -/
theorem byteOrderIsUnobservable : Obligations.ByteOrderIsUnobservable := by
  refine ⟨fun _ _ => sameOutcome_step, fun s t h => ?frame, fun s a v ha => ?layout⟩
  case frame => rw [(step_sameBookkeeping h).launch]
  case layout =>
    have byte : ∀ k < 4, Memory.readByte (s.setWord a v).mem (a.toNat + k) =
        byteOfWord s.launch.byteOrder v k := fun k hk => by
      rw [← byteAddr_aligned ha hk]
      exact Memory.readByte_writeWord_self _ _ a v hk
    constructor <;> intro ho <;> rw [ho] at byte
    · exact ⟨byte 0 (by decide), byte 1 (by decide), byte 2 (by decide), byte 3 (by decide)⟩
    · exact ⟨byte 0 (by decide), byte 1 (by decide), byte 2 (by decide), byte 3 (by decide)⟩

end Sys2Proof.Machine
end

