-- ==== Sys2Proof/Proofs/Encoding.lean ====
section
/-! SUPPORT. The decoder and the encoder (R64 to R68): each format's word is the one word with its
fields, so that `decode` and `encode` turn out to be inverse to each other (`decode_eq_ok_iff`); and
O26 to O29, O31 and O33. -/

namespace Sys2Proof

/-! ## The encoders -/

theorem toNat_encodeR (rs rt rd shamt : BitVec 5) (funct : BitVec 6) :
    (encodeR rs rt rd shamt funct).toNat = rs.toNat * 2 ^ 21 + rt.toNat * 2 ^ 16 +
      rd.toNat * 2 ^ 11 + shamt.toNat * 2 ^ 6 + funct.toNat := by
  rw [encodeR, BitVec.toNat_ofNat]
  omega

theorem toNat_encodeI (op : BitVec 6) (rs rt : Reg) (imm : Imm16) :
    (encodeI op rs rt imm).toNat =
      op.toNat * 2 ^ 26 + rs.toNat * 2 ^ 21 + rt.toNat * 2 ^ 16 + imm.toNat := by
  rw [encodeI, BitVec.toNat_ofNat]
  omega

theorem toNat_encodeJ (op : BitVec 6) (target : Target26) :
    (encodeJ op target).toNat = op.toNat * 2 ^ 26 + target.toNat := by
  rw [encodeJ, BitVec.toNat_ofNat]
  omega

/-- Settles O27: no field reaches into the next, so that no formula wraps around 2^32. -/
theorem encodersComputeTheFormulas : Obligations.EncodersComputeTheFormulas :=
  ⟨toNat_encodeR, toNat_encodeI, toNat_encodeJ⟩

/-- `encodeR` makes the one word with opcode 0 and these fields (R45, R68). -/
theorem encodeR_eq_iff {rs rt rd shamt : BitVec 5} {funct : BitVec 6} {w : Word} :
    encodeR rs rt rd shamt funct = w ↔ opField w = 0#6 ∧ rsField w = rs ∧ rtField w = rt ∧
      rdField w = rd ∧ shamtField w = shamt ∧ functField w = funct := by
  simp only [BitVec.toNat_eq, toNat_encodeR, opField, rsField, rtField, rdField, shamtField,
    functField, BitVec.toNat_ofNat, BitVec.extractLsb'_toNat, Nat.shiftRight_eq_div_pow]
  omega

/-- `encodeI` makes the one word with these fields (R46, R68). -/
theorem encodeI_eq_iff {op : BitVec 6} {rs rt : Reg} {imm : Imm16} {w : Word} :
    encodeI op rs rt imm = w ↔
      opField w = op ∧ rsField w = rs ∧ rtField w = rt ∧ immField w = imm := by
  simp only [BitVec.toNat_eq, toNat_encodeI, opField, rsField, rtField, immField,
    BitVec.extractLsb'_toNat, Nat.shiftRight_eq_div_pow]
  omega

/-- `encodeJ` makes the one word with these fields (R47, R68). -/
theorem encodeJ_eq_iff {op : BitVec 6} {target : Target26} {w : Word} :
    encodeJ op target = w ↔ opField w = op ∧ targetField w = target := by
  simp only [BitVec.toNat_eq, toNat_encodeJ, opField, targetField, BitVec.extractLsb'_toNat,
    Nat.shiftRight_eq_div_pow]
  omega

/-! ## The decoder against the encoder -/

theorem ifUnusedZero_eq_ok_iff {unusedZero : Bool} {i j : Instr} :
    ifUnusedZero unusedZero i = .ok j ↔ unusedZero = true ∧ i = j := by
  cases unusedZero <;> simp [ifUnusedZero]

theorem ifUnusedZero_eq_unusedField_iff {unusedZero : Bool} {i : Instr} :
    ifUnusedZero unusedZero i = .error .unusedField ↔ unusedZero = false := by
  cases unusedZero <;> simp [ifUnusedZero]

theorem decode_of_opField_zero {w : Word} (ho : opField w = 0#6) : decode w = decodeR w :=
  if_pos ho

/-- In each of the ten rows of the R format, the fields are operands or have been checked. -/
theorem encode_of_decodeR {w : Word} {i : Instr} (ho : opField w = 0#6) (h : decodeR w = .ok i) :
    encode i = w := by
  simp only [decodeR] at h
  iterate 10
    rcases ite_eq_iff.mp h with ⟨hf, h⟩ | ⟨-, h⟩
    · obtain ⟨hz, rfl⟩ := ifUnusedZero_eq_ok_iff.mp h
      simp only [Bool.and_eq_true, beq_iff_eq] at hz
      simp only [encode, encodeR_eq_iff, ho, hf, hz, and_self]
  cases h

/-- The rows of `decode` in their order: the R format, two of the J format, six of the I format. -/
theorem encode_of_decode {w : Word} {i : Instr} (h : decode w = .ok i) : encode i = w := by
  simp only [decode] at h
  rcases ite_eq_iff.mp h with ⟨ho, h⟩ | ⟨-, h⟩
  · exact encode_of_decodeR ho h
  iterate 2
    rcases ite_eq_iff.mp h with ⟨ho, h⟩ | ⟨-, h⟩
    · cases h
      exact encodeJ_eq_iff.mpr ⟨ho, rfl⟩
  iterate 6
    rcases ite_eq_iff.mp h with ⟨ho, h⟩ | ⟨-, h⟩
    · cases h
      exact encodeI_eq_iff.mpr ⟨ho, rfl, rfl, rfl⟩
  cases h

/-- The fields of an instruction's word, which its format gives, lead `decode` to its row. -/
theorem decode_of_encode {w : Word} {i : Instr} (h : encode i = w) : decode w = .ok i := by
  cases i with
  | add | sub | and | or | slt | mult | div | mfhi | mflo | jr =>
    rw [encode, encodeR_eq_iff] at h
    obtain ⟨ho, hrs, hrt, hrd, hshamt, hfunct⟩ := h
    simp [decode, decodeR, ifUnusedZero, *]
  | lw | sw | addi | slti | beq | bne =>
    rw [encode, encodeI_eq_iff] at h
    obtain ⟨ho, hrs, hrt, himm⟩ := h
    simp [decode, opLw, opSw, *]
  | j | jal =>
    rw [encode, encodeJ_eq_iff] at h
    obtain ⟨ho, htarget⟩ := h
    simp [decode, *]

/-- The words that decode to an instruction are its encoding and no other. -/
theorem decode_eq_ok_iff {w : Word} {i : Instr} : decode w = .ok i ↔ encode i = w :=
  ⟨encode_of_decode, decode_of_encode⟩

/-- Settles O28, of the word `encode i` itself. -/
theorem decodeInvertsEncode : Obligations.DecodeInvertsEncode :=
  fun _ => decode_of_encode rfl

/-- Settles O29: every branch of the decoder has read or checked the whole word. -/
theorem decodedWordIsTheEncoding : Obligations.DecodedWordIsTheEncoding :=
  fun _ _ => encode_of_decode

/-- Settles O26: `decode w` is `i` when `w` is the word of `i`, that is, when the fields of `w` are
those of the row of `i`; the other seventeen rows are of other instructions. -/
theorem decodeFollowsTheTable : Obligations.DecodeFollowsTheTable := by
  intro w op rs rt rd shamt funct imm target
  refine ⟨fun i => ?row, ?reserved⟩
  case row =>
    rw [decode_eq_ok_iff]
    cases i with
    | add | sub | and | or | slt | mult | div | mfhi | mflo | jr =>
      rw [encode, encodeR_eq_iff]
      simp only [reduceCtorEq, and_false, or_false, false_or, Instr.add.injEq, Instr.sub.injEq,
        Instr.and.injEq, Instr.or.injEq, Instr.slt.injEq, Instr.mult.injEq, Instr.div.injEq,
        Instr.mfhi.injEq, Instr.mflo.injEq, Instr.jr.injEq]
      tauto
    | lw | sw | addi | slti | beq | bne =>
      rw [encode, encodeI_eq_iff]
      simp only [reduceCtorEq, and_false, or_false, false_or, Instr.lw.injEq, Instr.sw.injEq,
        Instr.addi.injEq, Instr.slti.injEq, Instr.beq.injEq, Instr.bne.injEq]
      tauto
    | j | jal =>
      rw [encode, encodeJ_eq_iff]
      simp only [reduceCtorEq, and_false, or_false, false_or, Instr.j.injEq, Instr.jal.injEq]
      tauto
  case reserved => cases decode w <;> simp

/-- Settles O31: each listed function code leads `decode` to its row, whose check of the unused
fields fails. -/
theorem nonzeroUnusedFieldsAreReserved : Obligations.NonzeroUnusedFieldsAreReserved := by
  intro w ho
  simp only [decode_of_opField_zero ho, List.mem_cons, List.not_mem_nil, or_false]
  refine ⟨?arith, ?mulDiv, ?moveFrom, ?jumpReg⟩
  case arith =>
    rintro (hf | hf | hf | hf | hf) hne <;>
      simpa [decodeR, hf, ifUnusedZero_eq_unusedField_iff] using hne
  case mulDiv | moveFrom =>
    rintro (hf | hf) hne <;>
      simpa [decodeR, hf, ifUnusedZero_eq_unusedField_iff, ← imp_iff_not_or] using hne
  case jumpReg =>
    intro hf hne
    simpa [decodeR, hf, ifUnusedZero_eq_unusedField_iff, ← imp_iff_not_or] using hne

/-- Settles O33, word by word. -/
theorem listedReservedWordsAreRefused : Obligations.ListedReservedWordsAreRefused := by
  intro w hw
  fin_cases hw <;> exact ⟨_, rfl⟩

end Sys2Proof
end

