-- ==== Sys2Proof/Proofs/Targets.lean ====
section
/-! SUPPORT. The operands that an instruction makes of its fields (R49 to R52): the sign-extended
immediate, the branch target and the jump target as numbers, and the fields that an assembler makes
for a label (R61, R62); and O21, O23, O24 and O25. -/

namespace Sys2Proof.Machine

/-! ## The immediate -/

@[simp] theorem toInt_sext32 (imm : Imm16) : (sext32 imm).toInt = imm.toInt :=
  BitVec.toInt_signExtend_of_le (by decide)

theorem toNat_sext32 (imm : Imm16) : ((sext32 imm).toNat : Int) = imm.toInt % 2 ^ 32 := by
  have hs : sext32 imm = BitVec.ofInt 32 imm.toInt := rfl
  rw [hs, BitVec.toNat_ofInt]
  omega

theorem toInt_imm16_range (imm : Imm16) : -2 ^ 15 ≤ imm.toInt ∧ imm.toInt ≤ 2 ^ 15 - 1 :=
  ⟨imm.le_toInt, Int.le_sub_one_of_lt imm.toInt_lt⟩

/-- Settles O21: sign extension keeps the signed value. -/
theorem immediateSignExtends : Obligations.ImmediateSignExtends := by
  intro imm
  rw [toInt_sext32]
  exact ⟨rfl, toInt_imm16_range imm⟩

/-! ## The branch target -/

theorem toNat_branchTarget (s : State) (imm : Imm16) :
    ((s.branchTarget imm).toNat : Int) = (s.pc.toNat + 4 + 4 * imm.toInt) % 2 ^ 32 := by
  have himm := toNat_sext32 imm
  have htarget : (s.branchTarget imm).toNat =
      (s.pc.toNat + 4 + 4 * (sext32 imm).toNat) % 2 ^ 32 := by
    simp only [State.branchTarget, State.npc_eq, BitVec.toNat_add, BitVec.toNat_shiftLeft,
      BitVec.toNat_ofNat, Nat.shiftLeft_eq]
    omega
  omega

/-- A taken branch goes to its target (R86). -/
theorem State.branchIf_pc_of_taken (s : State) {taken : Prop} [Decidable taken] (h : taken)
    (imm : Imm16) : (s.branchIf taken imm).pc = s.branchTarget imm := by
  rw [State.branchIf, if_pos h, State.setPc_pc]

/-- Settles O23: either branch, taken, goes to the branch target, whose number the claim is about. -/
theorem branchTargetCountsWordsFromNpc : Obligations.BranchTargetCountsWordsFromNpc := by
  intro s t rs rt imm h
  have ht : t.pc = s.branchTarget imm := by
    rcases h with ⟨htaken, h⟩ | ⟨htaken, h⟩ <;> cases h <;>
      exact s.branchIf_pc_of_taken htaken imm
  have hpc := toNat_branchTarget s imm
  rw [← ht] at hpc
  obtain ⟨hlo, hhi⟩ := toInt_imm16_range imm
  refine ⟨hpc, by omega, by omega, fun ha => ?aligned⟩
  case aligned =>
    unfold aligned at *
    omega

/-! ## The jump target -/

/-- The jump target is the one address with these three slices (R52). -/
theorem jumpTarget_eq_iff {s : State} {target : Target26} {a : Word} :
    s.jumpTarget target = a ↔ a.extractLsb' 28 4 = s.npc.extractLsb' 28 4 ∧
      a.extractLsb' 2 26 = target ∧ a.extractLsb' 0 2 = 0#2 := by
  simp only [State.jumpTarget, BitVec.toNat_eq, toNat_append_eq_add, BitVec.extractLsb'_toNat,
    BitVec.toNat_ofNat, Nat.shiftRight_eq_div_pow]
  omega

/-- Settles O24: `j` and `jal` go to the jump target, which has these slices. -/
theorem jumpTargetKeepsRegion : Obligations.JumpTargetKeepsRegion := by
  rintro s t target (h | h) <;> cases h <;> exact jumpTarget_eq_iff.mp rfl

/-! ## The fields an assembler makes -/

theorem toInt_of_immOperand {n : Int} {imm : Imm16} (h : immOperand n = some imm) :
    imm.toInt = n := by
  unfold immOperand at h
  split at h
  · cases h
    rw [BitVec.toInt_ofInt]
    exact Int.bmod_eq_of_le (by omega) (by omega)
  · cases h

theorem toInt_of_branchOperand {bytes : Int} {imm : Imm16} (h : branchOperand bytes = some imm) :
    4 * imm.toInt = bytes := by
  unfold branchOperand at h
  split at h
  · rw [toInt_of_immOperand h]
    omega
  · cases h

theorem aligned_iff_extractLsb' {a : Word} : aligned a ↔ a.extractLsb' 0 2 = 0#2 := by
  simp [BitVec.toNat_eq]

/-- Settles O25: the branch field counts the words from `npc` to the label, which R51 adds again; the
label has the slices that R52 gives the jump target. -/
theorem assembledTargetsReachTheirLabels : Obligations.AssembledTargetsReachTheirLabels := by
  intro s label
  refine ⟨fun imm h => ?branch, fun ha hregion => ?jump⟩
  case branch =>
    have hfield := toInt_of_branchOperand h
    have htarget := toNat_branchTarget s imm
    apply BitVec.eq_of_toNat_eq
    omega
  case jump => exact jumpTarget_eq_iff.mpr ⟨hregion, rfl, aligned_iff_extractLsb'.mp ha⟩

end Sys2Proof.Machine
end

/-! SUPPORT. The R-type arithmetic, logic and comparison instructions (R69 to R74): the word of an R
format instruction field by field, the frame of a register write, the two answers of a checked result;
and O1 to O5. -/

namespace Sys2Proof

/-- An instruction's fields, laid out in the R format (R45), decode to it. -/
theorem decode_append_of_encode_eq_encodeR {i : Instr} {rs rt rd shamt : BitVec 5}
    {funct : BitVec 6} (h : encode i = encodeR rs rt rd shamt funct) :
    decode (0#6 ++ rs ++ rt ++ rd ++ shamt ++ funct) = .ok i :=
  decode_of_encode (h.trans (encodeR_eq_append rs rt rd shamt funct))

namespace Machine

/-! ## How a register-writing instruction ends -/

/-- `x[rd] <- v`, `pc <- npc` writes that register and leaves the rest as it was (R8, R14). -/
theorem State.writesReg_advance_setReg (s : State) (rd : Reg) (v : Word) :
    WritesReg s (s.setReg rd v).advance rd v where
  regs q := s.reg_setReg rd q v
  pc := rfl
  hi := rfl
  lo := rfl
  mem _ := rfl
  draws := rfl
  rest := ⟨rfl, rfl, rfl⟩

/-- A result that fits is written, with the frame of a register write (R70, R71, R83). -/
theorem State.writeIfFits_of_fits (s : State) (rd : Reg) {exact : Int} (v : Word)
    (h : fitsSigned exact) :
    ∃ t, s.writeIfFits rd exact v = .next t ∧ WritesReg s t rd v :=
  ⟨_, if_pos h, s.writesReg_advance_setReg rd v⟩

/-- A result below or above the signed range is an overflow, at the `pc` of the instruction (R97). -/
theorem State.writeIfFits_of_overflow (s : State) (rd : Reg) {exact : Int} (v : Word)
    (h : exact < -2 ^ 31 ∨ exact > 2 ^ 31 - 1) :
    s.writeIfFits rd exact v = .fault (.integerOverflow s.pc) := by
  have hno : ¬ fitsSigned exact := by
    rintro ⟨hlo, hhi⟩
    omega
  exact if_neg hno

/-! ## The five instructions -/

/-- Settles O1: `add` ends in the checked write of the exact signed sum. -/
theorem addWritesSumOrOverflows : Obligations.AddWritesSumOrOverflows := fun rd _ _ =>
  ⟨decode_append_of_encode_eq_encodeR rfl, fun s =>
    ⟨s.writeIfFits_of_fits rd _, s.writeIfFits_of_overflow rd _⟩⟩

/-- Settles O2: `sub` ends in the checked write of the exact signed difference, `rs` the minuend. -/
theorem subWritesDifferenceOrOverflows : Obligations.SubWritesDifferenceOrOverflows := fun rd _ _ =>
  ⟨decode_append_of_encode_eq_encodeR rfl, fun s =>
    ⟨s.writeIfFits_of_fits rd _, s.writeIfFits_of_overflow rd _⟩⟩

/-- Settles O3: `and` ends in an unconditional register write. -/
theorem andWritesBitwiseAnd : Obligations.AndWritesBitwiseAnd := fun rd _ _ =>
  ⟨decode_append_of_encode_eq_encodeR rfl, fun s => ⟨_, rfl, s.writesReg_advance_setReg rd _⟩⟩

/-- Settles O4: `or` ends in an unconditional register write. -/
theorem orWritesBitwiseOr : Obligations.OrWritesBitwiseOr := fun rd _ _ =>
  ⟨decode_append_of_encode_eq_encodeR rfl, fun s => ⟨_, rfl, s.writesReg_advance_setReg rd _⟩⟩

/-- Settles O5: `slt` ends in an unconditional register write, of the value of `setOnLess`. -/
theorem sltWritesSignedComparison : Obligations.SltWritesSignedComparison := fun rd _ _ =>
  ⟨decode_append_of_encode_eq_encodeR rfl, fun s => ⟨_, rfl, s.writesReg_advance_setReg rd _⟩⟩

end Machine

end Sys2Proof

/-! SUPPORT. Multiply, divide and the moves from HI and LO (R75 to R79): the frame of a write and of a
draw of HI and LO, the signed product as the number that two words hold, `div` where R77 states a
result and where it states none; and O6 to O11, O53 and O57. -/

namespace Sys2Proof.Machine

/-! ## How an instruction that writes HI and LO ends -/

/-- `HI <- h; LO <- l`, `pc <- npc` writes those two and leaves the rest as it was (R8, R19). -/
theorem State.writesHiLo_advance_setHiLo (s : State) (h l : Word) :
    WritesHiLo s (s.setHiLo h l).advance h l 0 where
  regs _ := rfl
  pc := rfl
  hi := rfl
  lo := rfl
  mem _ := rfl
  draws := rfl
  rest := ⟨rfl, rfl, rfl⟩

/-- `HI <- any32; LO <- any32`, `pc <- npc` draws those two and leaves the rest as it was (log 8). -/
theorem State.writesHiLo_advance_drawHiLo (s : State) :
    WritesHiLo s s.drawHiLo.advance (Config.any32 s.draws) (Config.any32 (s.draws + 1)) 2 where
  regs _ := rfl
  pc := rfl
  hi := rfl
  lo := rfl
  mem _ := rfl
  draws := rfl
  rest := ⟨rfl, rfl, rfl⟩

/-! ## The product (R76) -/

/-- The product of two signed words fits 64 bits, so its pattern is the exact product. -/
theorem toInt_signedProduct (a b : Word) : (signedProduct a b).toInt = a.toInt * b.toInt := by
  have hlo : -2 ^ 62 ≤ a.toInt * b.toInt := BitVec.le_toInt_mul_toInt
  have hhi : a.toInt * b.toInt ≤ 2 ^ 62 := BitVec.toInt_mul_toInt_le
  exact BitVec.toInt_ofInt_eq_self (by decide) (by omega) (by omega)

/-- The halves that `mult` writes, side by side, are the exact product (R76). -/
theorem toInt_append_halves_signedProduct (a b : Word) :
    ((signedProduct a b).extractLsb' 32 32 ++ (signedProduct a b).extractLsb' 0 32 :
      BitVec 64).toInt = a.toInt * b.toInt := by
  rw [BitVec.extractLsb'_append_extractLsb' (w := 32) (len := 32), toInt_signedProduct]

/-- Settles O6: `mult` ends in a write of the two halves of the exact product. -/
theorem multWritesExactProduct : Obligations.MultWritesExactProduct := fun _ _ =>
  ⟨decode_append_of_encode_eq_encodeR rfl, fun s =>
    ⟨_, _, _, rfl, s.writesHiLo_advance_setHiLo _ _, toInt_append_halves_signedProduct _ _⟩⟩

/-! ## The quotient and the remainder (R77) -/

/-- A number that some word has as its signed value is the signed value of its own pattern. -/
theorem toInt_ofInt_of_toInt_eq {w : Word} {n : Int} (h : w.toInt = n) :
    (BitVec.ofInt 32 n).toInt = n := by
  rw [← h, BitVec.ofInt_toInt]

/-- The truncated quotient is a signed word but for -2^31 / -1 (R77). -/
theorem toInt_ofInt_tdiv {a b : Word} (h : ¬ (a.toInt = -2 ^ 31 ∧ b.toInt = -1)) :
    (BitVec.ofInt 32 (a.toInt.tdiv b.toInt)).toInt = a.toInt.tdiv b.toInt := by
  have hne : a ≠ BitVec.intMin 32 ∨ b ≠ -1#32 := by
    refine not_and_or.mp fun ⟨ha, hb⟩ => h ?_
    subst ha hb
    decide
  exact toInt_ofInt_of_toInt_eq (BitVec.toInt_sdiv_of_ne_or_ne a b hne)

/-- R77's `n - q * d` is the remainder of truncated division. -/
theorem sub_tdiv_mul_eq_tmod (n d : Int) : n - n.tdiv d * d = n.tmod d :=
  sub_eq_of_eq_add (Int.tmod_add_tdiv_mul n d).symm

/-- The remainder is a signed word (R77). -/
theorem toInt_ofInt_sub_tdiv_mul (a b : Word) :
    (BitVec.ofInt 32 (a.toInt - a.toInt.tdiv b.toInt * b.toInt)).toInt =
      a.toInt - a.toInt.tdiv b.toInt * b.toInt :=
  toInt_ofInt_of_toInt_eq ((BitVec.toInt_srem a b).trans (sub_tdiv_mul_eq_tmod _ _).symm)

/-- `div` where R77 states a result: the quotient and the remainder as patterns. -/
theorem exec_div_of_defined {rs rt : Reg} {s : State}
    (h : ¬ divUndefined (s.reg rs).toInt (s.reg rt).toInt) :
    exec (.div rs rt) s = .next (s.setHiLo
      (BitVec.ofInt 32 ((s.reg rs).toInt - (s.reg rs).toInt.tdiv (s.reg rt).toInt * (s.reg rt).toInt))
      (BitVec.ofInt 32 ((s.reg rs).toInt.tdiv (s.reg rt).toInt))).advance :=
  if_neg h

/-- `div` where R77 states no result: two draws. -/
theorem exec_div_of_undefined {rs rt : Reg} {s : State}
    (h : divUndefined (s.reg rs).toInt (s.reg rt).toInt) :
    exec (.div rs rt) s = .next s.drawHiLo.advance :=
  if_pos h

/-- Settles O9: the two cases of the claim are those in which `div` draws. -/
theorem divUndefinedTakesTwoFreshDraws : Obligations.DivUndefinedTakesTwoFreshDraws :=
  fun _ _ s h => ⟨_, exec_div_of_undefined h, s.writesHiLo_advance_drawHiLo⟩

/-- Settles O7: `div` writes patterns of numbers that are signed words, or it draws. -/
theorem divWritesQuotientAndRemainder : Obligations.DivWritesQuotientAndRemainder := by
  intro rs rt
  refine ⟨decode_append_of_encode_eq_encodeR rfl, fun s => ⟨?defined, fun hu => ?undefined⟩⟩
  case defined =>
    rintro ⟨hzero, hover⟩
    exact ⟨_, _, _, exec_div_of_defined (not_or.mpr ⟨hzero, hover⟩),
      s.writesHiLo_advance_setHiLo _ _, toInt_ofInt_tdiv hover, toInt_ofInt_sub_tdiv_mul _ _⟩
  case undefined =>
    obtain ⟨t, ht, hw⟩ := divUndefinedTakesTwoFreshDraws rs rt s hu
    exact ⟨t, _, _, _, ht, hw⟩

/-- The remainder of truncated division is 0 or has the sign of the dividend. -/
theorem tmod_eq_zero_or_same_sign (n d : Int) :
    n.tmod d = 0 ∨ (0 < n.tmod d ∧ 0 < n) ∨ (n.tmod d < 0 ∧ n < 0) := by
  by_cases hdvd : d ∣ n
  · exact .inl (Int.tmod_eq_zero_of_dvd hdvd)
  have hsign : (n.tmod d).sign = n.sign := (Int.sign_tmod n d).trans (if_neg hdvd)
  rcases Int.lt_trichotomy n 0 with hneg | rfl | hpos
  · rw [Int.sign_eq_neg_one_of_neg hneg] at hsign
    exact .inr (.inr ⟨Int.neg_of_sign_eq_neg_one hsign, hneg⟩)
  · exact absurd (Int.dvd_zero d) hdvd
  · rw [Int.sign_eq_one_of_pos hpos] at hsign
    exact .inr (.inl ⟨Int.pos_of_sign_eq_one hsign, hpos⟩)

/-- Settles O8: HI and LO hold what R77 states (O7), so HI is the remainder of truncated division. -/
theorem divRemainderHasDividendSign : Obligations.DivRemainderHasDividendSign := by
  intro rs rt s t he hzero hover
  obtain ⟨_, _, _, he', hw, hlo, hhi⟩ := ((divWritesQuotientAndRemainder rs rt).2 s).1 ⟨hzero, hover⟩
  cases he.symm.trans he'
  rw [← hw.lo] at hlo
  rw [← hw.hi, sub_tdiv_mul_eq_tmod] at hhi
  rw [hlo, hhi]
  refine ⟨(Int.tdiv_mul_add_tmod _ _).symm, ?size, tmod_eq_zero_or_same_sign _ _⟩
  case size =>
    rw [Int.natAbs_tmod]
    exact Nat.mod_lt _ (Int.natAbs_pos.mpr hzero)

/-! ## Who draws (R77, part 1 of 93_implementation_defined.md) -/

/-- An effect moves the draw counter only where `div` has no stated result, and then by two (log 8). -/
theorem Effect.draws_eq_or_div {i : Instr} {s t : State} (h : Effect i s t) :
    t.draws = s.draws ∨ ∃ rs rt, i = .div rs rt ∧ t.draws = s.draws + 2 ∧
      divUndefined (s.reg rs).toInt (s.reg rt).toInt := by
  cases h with
  | drawHiLo rs rt hi hu => exact .inr ⟨rs, rt, hi, rfl, hu⟩
  | writeReg | link | writeHiLo | branch | jump | jumpReg | store => exact .inl rfl

/-- Settles O53: of the effects of an instruction one moves the draw counter. -/
theorem onlyUndefinedDivisionsDraw : Obligations.OnlyUndefinedDivisionsDraw :=
  fun _ _ _ he hne => (exec_effect he).draws_eq_or_div.resolve_left hne

/-! ## The moves from HI and LO (R78, R79) -/

/-- Settles O10: `mfhi` ends in an unconditional register write, of HI. -/
theorem mfhiCopiesHi : Obligations.MfhiCopiesHi := fun rd =>
  ⟨decode_append_of_encode_eq_encodeR rfl, fun s => ⟨_, rfl, s.writesReg_advance_setReg rd _⟩⟩

/-- Settles O11: `mflo` ends in an unconditional register write, of LO. -/
theorem mfloCopiesLo : Obligations.MfloCopiesLo := fun rd =>
  ⟨decode_append_of_encode_eq_encodeR rfl, fun s => ⟨_, rfl, s.writesReg_advance_setReg rd _⟩⟩

/-- Settles O57: `mflo` leaves HI alone and `mfhi` leaves the other destination alone, so the two
registers hold the halves that `mult` wrote. -/
theorem productIsReadDirectlyAfterMult : Obligations.ProductIsReadDirectlyAfterMult := by
  intro rs rt rl rh s hl hh hne
  obtain ⟨t, h, l, hmult, ht, hp⟩ := (multWritesExactProduct rs rt).2 s
  obtain ⟨u, hmflo, hu⟩ := (mfloCopiesLo rl).2 t
  obtain ⟨v, hmfhi, hv⟩ := (mfhiCopiesHi rh).2 u
  have hhigh : v.reg rh = h := by simp [hv.regs, hh, hu.hi, ht.hi]
  have hlow : v.reg rl = l := by simp [hv.regs, hl, hne, hu.regs, ht.lo]
  exact ⟨t, u, v, hmult, hmflo, hmfhi, by rw [hhigh, hlow, hp]⟩

end Sys2Proof.Machine

/-! SUPPORT. Load and store (R80 to R82): the word of an I format instruction field by field, the
effective address as a number, `lw` and `sw` under each answer of their checked access, the frame of a
stored word; and O12, O13 and O22. -/

namespace Sys2Proof

/-- An instruction's fields, laid out in the I format (R46), decode to it. -/
theorem decode_append_of_encode_eq_encodeI {i : Instr} {op : BitVec 6} {rs rt : Reg} {imm : Imm16}
    (h : encode i = encodeI op rs rt imm) : decode (op ++ rs ++ rt ++ imm) = .ok i :=
  decode_of_encode (h.trans (encodeI_eq_append op rs rt imm))

namespace Machine

/-! ## The effective address (R80) -/

/-- Settles O22: the 32-bit sum takes the sign-extended offset modulo 2^32. -/
theorem effectiveAddressWraps : Obligations.EffectiveAddressWraps := by
  intro s rs imm
  have himm := toNat_sext32 imm
  have hsum : (s.baseDisp rs imm).toNat = ((s.reg rs).toNat + (sext32 imm).toNat) % 2 ^ 32 :=
    BitVec.toNat_add _ _
  omega

/-! ## `lw`, check by check (R33, R81) -/

theorem State.loadWord_of_misaligned {s : State} {a : Word} (h : ¬ aligned a) :
    s.loadWord a = .fault (.addressErrorLoad s.pc a) :=
  if_pos h

theorem State.loadWord_of_unpopulated {s : State} {a : Word} (ha : aligned a)
    (hm : s.launch.memValid a = false) : s.loadWord a = .fault (.accessFault s.pc a) :=
  (if_neg (not_not_intro ha)).trans (if_pos hm)

/-- `lw` ends in the fault of its load. -/
theorem exec_lw_of_loadWord_fault {s : State} {rs : Reg} {imm : Imm16} {f : Fault} (rt : Reg)
    (h : s.loadWord (s.baseDisp rs imm) = .fault f) : exec (.lw rt rs imm) s = .fault f := by
  simp only [exec, execLw, h, andThen_fault]

/-- Settles O12: `lw` ends as its load does, and a loaded word ends in a register write. -/
theorem lwLoadsWordOrFaults : Obligations.LwLoadsWordOrFaults := by
  intro rt rs imm
  refine ⟨decode_append_of_encode_eq_encodeI rfl, fun s => ⟨fun ha => ?misaligned, ?unpopulated, ?word⟩⟩
  case misaligned => exact exec_lw_of_loadWord_fault rt (State.loadWord_of_misaligned ha)
  case unpopulated =>
    rintro ⟨ha, hm⟩
    exact exec_lw_of_loadWord_fault rt (State.loadWord_of_unpopulated ha hm)
  case word =>
    rintro ⟨-, hm⟩
    exact ⟨_, exec_lw_of_loadWord rt (State.loadWord_of_word hm rfl), s.writesReg_advance_setReg rt _⟩

/-! ## `sw`, check by check (R34, R82) -/

/-- `sw` ends in the fault of its store. -/
theorem exec_sw_of_storeWord_fault {s : State} {rt rs : Reg} {imm : Imm16} {f : Fault}
    (h : s.storeWord (s.baseDisp rs imm) (s.reg rt) = .fault f) :
    exec (.sw rt rs imm) s = .fault f := by
  simp only [exec, execSw, h, andThen_fault]

/-- `sw` goes on to the next instruction from the state that its store gives. -/
theorem exec_sw_of_storeWord {s t : State} {rt rs : Reg} {imm : Imm16}
    (h : s.storeWord (s.baseDisp rs imm) (s.reg rt) = .next t) :
    exec (.sw rt rs imm) s = .next t.advance := by
  simp only [exec, execSw, h, andThen_next]

/-- `mem[a] <- v`, `pc <- npc` writes that word and leaves the rest as it was (R8, R34). -/
theorem State.writesWord_advance_setWord (s : State) (a v : Word) :
    WritesWord s (s.setWord a v).advance a v where
  regs _ := rfl
  pc := rfl
  hi := rfl
  lo := rfl
  stored := s.word_setWord_self a v
  mem _ := Memory.readByte_writeWord_of_not_inWord s.launch.byteOrder s.mem a v
  draws := rfl
  rest := ⟨rfl, rfl, rfl⟩

/-- Settles O13: `sw` ends as its store does, and a store that passes the checks writes one word. -/
theorem swStoresWordOrStops : Obligations.SwStoresWordOrStops := by
  intro rt rs imm
  refine ⟨decode_append_of_encode_eq_encodeI rfl, fun s =>
    ⟨fun ha => ?misaligned, ?unpopulated, exec_sw_of_inText rt, ?stored⟩⟩
  case misaligned => exact exec_sw_of_storeWord_fault (State.storeWord_of_misaligned _ ha)
  case unpopulated =>
    rintro ⟨ha, hm⟩
    exact exec_sw_of_storeWord_fault (State.storeWord_of_unpopulated _ ha hm)
  case stored =>
    rintro ⟨hm, ht⟩
    exact ⟨_, exec_sw_of_storeWord (State.storeWord_of_data _ hm ht),
      s.writesWord_advance_setWord _ _⟩

end Machine

end Sys2Proof

/-! SUPPORT. Arithmetic and comparison with an immediate (R83, R84): what the two instructions do, with
the constant read as the signed 16-bit number that sign extension keeps; and O14 and O15. -/

namespace Sys2Proof.Machine

/-- `addi` ends in the checked write, the check being on the signed constant as a number (R50, R83). -/
theorem exec_addi_eq_writeIfFits (rt rs : Reg) (imm : Imm16) (s : State) :
    exec (.addi rt rs imm) s =
      s.writeIfFits rt ((s.reg rs).toInt + imm.toInt) (s.reg rs + imm.signExtend 32) := by
  rw [← toInt_sext32 imm]
  rfl

/-- Comparing with an extended constant is comparing with its signed number (R50, R84). -/
theorem setOnLess_sext32 (a : Word) (imm : Imm16) :
    setOnLess a (sext32 imm) = if a.toInt < imm.toInt then 1#32 else 0#32 := by
  rw [setOnLess, toInt_sext32]

/-- `slti` ends in a register write, whatever the comparison gives (R84). -/
theorem exec_slti_eq_next (rt rs : Reg) (imm : Imm16) (s : State) :
    exec (.slti rt rs imm) s =
      .next (s.setReg rt (if (s.reg rs).toInt < imm.toInt then 1#32 else 0#32)).advance := by
  rw [← setOnLess_sext32]
  rfl

/-- Settles O14: `addi` ends in the checked write of the exact signed sum with the constant. -/
theorem addiWritesSumOrOverflows : Obligations.AddiWritesSumOrOverflows := by
  intro rt rs imm
  refine ⟨decode_append_of_encode_eq_encodeI rfl, fun s => ?_⟩
  rw [exec_addi_eq_writeIfFits]
  exact ⟨s.writeIfFits_of_fits rt _, s.writeIfFits_of_overflow rt _⟩

/-- Settles O15: `slti` ends in an unconditional register write, of the signed comparison. -/
theorem sltiWritesSignedComparison : Obligations.SltiWritesSignedComparison := fun rt rs imm =>
  ⟨decode_append_of_encode_eq_encodeI rfl, fun s =>
    ⟨_, exec_slti_eq_next rt rs imm s, s.writesReg_advance_setReg rt _⟩⟩

end Sys2Proof.Machine

/-! SUPPORT. The branches (R86 to R88): a branch, on whatever condition, writes `pc` and nothing else;
and O16 and O17. -/

namespace Sys2Proof.Machine

/-- `pc <- a` writes `pc` and leaves the rest as it was (R8). -/
theorem State.writesPc_setPc (s : State) (a : Word) : WritesPc s (s.setPc a) a where
  regs _ := rfl
  pc := rfl
  hi := rfl
  lo := rfl
  mem _ := rfl
  draws := rfl
  rest := ⟨rfl, rfl, rfl⟩

/-- A branch writes `pc`: with the target where the condition holds, else with `npc` (R51, R86). -/
theorem State.writesPc_branchIf (s : State) (taken : Prop) [Decidable taken] (imm : Imm16) :
    WritesPc s (s.branchIf taken imm)
      (if taken then s.pc + 4#32 + (imm.signExtend 32 <<< 2) else s.pc + 4#32) := by
  rcases s.branchIf_cases taken imm with ⟨htaken, heq⟩ | ⟨hnot, heq⟩
  · rw [heq, if_pos htaken]
    exact s.writesPc_setPc (s.branchTarget imm)
  · rw [heq, if_neg hnot]
    exact s.writesPc_setPc (s.pc + 4#32)

/-- Settles O16: `beq` is the branch on equality. -/
theorem beqBranchesWhenEqual : Obligations.BeqBranchesWhenEqual := fun _ _ imm =>
  ⟨decode_append_of_encode_eq_encodeI rfl, fun s => ⟨_, rfl, s.writesPc_branchIf _ imm⟩⟩

/-- Settles O17: `bne` is the branch on difference, so the two values of `pc` change places. -/
theorem bneBranchesWhenDifferent : Obligations.BneBranchesWhenDifferent := by
  intro rs rt imm
  refine ⟨decode_append_of_encode_eq_encodeI rfl, fun s => ⟨_, rfl, ?_⟩⟩
  rw [← ite_not]
  exact s.writesPc_branchIf (s.reg rs ≠ s.reg rt) imm

end Sys2Proof.Machine

/-! SUPPORT. The jumps (R89 to R92): the word of a J format instruction field by field, the link
register, the step at a misaligned `pc` that `jr` can leave behind; and O18 to O20 and O56. -/

namespace Sys2Proof

/-- An instruction's fields, laid out in the J format (R47), decode to it. -/
theorem decode_append_of_encode_eq_encodeJ {i : Instr} {op : BitVec 6} {target : Target26}
    (h : encode i = encodeJ op target) : decode (op ++ target) = .ok i :=
  decode_of_encode (h.trans (encodeJ_eq_append op target))

namespace Machine

/-! ## A jump to a misaligned address (R91, R95) -/

/-- A well-formed launch has an aligned `HALT_PC` (R110). -/
theorem Launch.aligned_haltPc_of_wellFormed {l : Launch} (h : l.wellFormed = true) :
    aligned l.haltPc := by
  simp only [Launch.wellFormed, Bool.and_eq_true, beq_iff_eq] at h
  obtain ⟨⟨⟨-, hhalt⟩, -⟩, -⟩ := h
  exact hhalt

/-- A misaligned `pc` is not a well-formed launch's `HALT_PC`, so its fetch faults (R95, R110). -/
theorem step_of_misaligned {s : State} (hr : s.running) (hl : s.launch.wellFormed = true)
    (ha : ¬ aligned s.pc) : step s = .fault (.addressErrorFetch s.pc s.pc) := by
  have hp : s.pc ≠ s.launch.haltPc := fun he => ha (he ▸ Launch.aligned_haltPc_of_wellFormed hl)
  obtain ⟨-, hmisaligned, -⟩ := stepFollowsTheCycle s hr
  exact hmisaligned hp ha

/-- Settles O20: `jr` is a write of `pc`, which leaves a running state running under its launch. -/
theorem jrJumpsToRegister : Obligations.JrJumpsToRegister := fun rs =>
  ⟨decode_append_of_encode_eq_encodeR rfl, fun s =>
    ⟨_, rfl, s.writesPc_setPc (s.reg rs), step_of_misaligned (s := s.setPc (s.reg rs))⟩⟩

/-! ## The jumps in the region of the next instruction (R89, R90) -/

/-- Settles O18: `j` is a write of `pc`. -/
theorem jJumpsInRegion : Obligations.JJumpsInRegion := fun target =>
  ⟨decode_append_of_encode_eq_encodeJ rfl, fun s =>
    ⟨_, rfl, s.writesPc_setPc (s.jumpTarget target)⟩⟩

/-- All general registers after the write of one from 1 to 31 (R14). -/
theorem State.reg_setReg_of_ne_zero (s : State) {r : Reg} (v : Word) (h : r ≠ 0#5) (q : Reg) :
    (s.setReg r v).reg q = if q = r then v else s.reg q := by
  split
  case isTrue he => rw [he, s.reg_setReg_self v h]
  case isFalse hne => exact s.reg_setReg_ne v hne

/-- Settles O19: `jal` writes the link register, which is not register 0, and `pc`. -/
theorem jalLinksAndJumps : Obligations.JalLinksAndJumps := by
  intro target
  refine ⟨decode_append_of_encode_eq_encodeJ rfl, fun s => ⟨_, rfl, ?link, rfl, ?frame⟩⟩
  case link => exact s.reg_setReg_of_ne_zero (r := raReg) s.npc (by decide)
  case frame => exact ⟨rfl, rfl, fun _ => rfl, rfl, rfl, rfl, rfl⟩

/-! ## Call and return (R92) -/

/-- Settles O56: `jal` links the address, and `jr` goes to what the link register holds. -/
theorem jrReturnsFromJal : Obligations.JrReturnsFromJal := by
  intro target s t u hjal hu
  obtain ⟨_, hjal', hregs, -⟩ := (jalLinksAndJumps target).2 s
  cases hjal.symm.trans hjal'
  have hlink : t.reg 31#5 = s.pc + 4#32 := hregs 31#5
  obtain ⟨v, hjr, hv, -⟩ := (jrJumpsToRegister 31#5).2 u
  exact ⟨hlink, v, hjr, by rw [hv.pc, hu, hlink]⟩

end Machine

end Sys2Proof

/-! SUPPORT. Faults and refusals (R93 to R101): when each shared operation, each instruction and the step
stops, as equivalences, and that a stopped run stays stopped; with O32, O41 and O43 to O46. -/

namespace Sys2Proof.Machine

/-! ## When an operation stops -/

theorem andThen_eq_fault_iff {α β : Type} {o : Host.Outcome α Fault Refusal}
    {k : α → Host.Outcome β Fault Refusal} {f : Fault} :
    andThen o k = .fault f ↔ o = .fault f ∨ ∃ a, o = .next a ∧ k a = .fault f := by
  cases o with
  | next | fault | refused => simp

theorem andThen_eq_refused_iff {α β : Type} {o : Host.Outcome α Fault Refusal}
    {k : α → Host.Outcome β Fault Refusal} {r : Refusal} :
    andThen o k = .refused r ↔ o = .refused r ∨ ∃ a, o = .next a ∧ k a = .refused r := by
  cases o with
  | next | fault | refused => simp

/-- The checked write raises the overflow and nothing else (R97). -/
theorem State.writeIfFits_eq_fault_iff {s : State} {rd : Reg} {exact : Int} {v : Word} {f : Fault} :
    s.writeIfFits rd exact v = .fault f ↔ ¬ fitsSigned exact ∧ f = .integerOverflow s.pc := by
  rcases s.writeIfFits_cases rd exact v with ⟨hfits, he⟩ | ⟨hno, he⟩
  · exact iff_of_false (by simp [he]) fun ⟨hno, _⟩ => hno hfits
  · rw [he, Host.Outcome.fault.injEq, eq_comm, and_iff_right hno]

theorem State.writeIfFits_ne_refused (s : State) (rd : Reg) (exact : Int) (v : Word) (r : Refusal) :
    s.writeIfFits rd exact v ≠ .refused r := by
  rcases s.writeIfFits_cases rd exact v with ⟨-, he⟩ | ⟨-, he⟩ <;> simp [he]

/-- A load raises its address error or the access fault (R96, R98), in this order (R101). -/
theorem State.loadWord_eq_fault_iff {s : State} {a : Word} {f : Fault} :
    s.loadWord a = .fault f ↔ (¬ aligned a ∧ f = .addressErrorLoad s.pc a) ∨
      (aligned a ∧ s.launch.memValid a = false ∧ f = .accessFault s.pc a) := by
  rcases s.loadWord_cases a with ⟨ha, he⟩ | ⟨ha, hm, he⟩ | ⟨hm, he⟩
  · simp [he, ha, eq_comm (a := f)]
  · simp [he, aligned, ha, hm, eq_comm (a := f)]
  · simp [he, hm, Launch.aligned_of_memValid hm]

theorem State.loadWord_ne_refused (s : State) (a : Word) (r : Refusal) :
    s.loadWord a ≠ .refused r := by
  rcases s.loadWord_cases a with ⟨-, he⟩ | ⟨-, -, he⟩ | ⟨-, he⟩ <;> simp [he]

/-- A store raises its address error or the access fault (R96, R98), in this order (R101). -/
theorem State.storeWord_eq_fault_iff {s : State} {a v : Word} {f : Fault} :
    s.storeWord a v = .fault f ↔ (¬ aligned a ∧ f = .addressErrorStore s.pc a) ∨
      (aligned a ∧ s.launch.memValid a = false ∧ f = .accessFault s.pc a) := by
  rcases s.storeWord_cases a v with ⟨ha, he⟩ | ⟨ha, hm, he⟩ | ⟨ht, he⟩ | ⟨hm, -, he⟩
  · simp [he, ha, eq_comm (a := f)]
  · simp [he, aligned, ha, hm, eq_comm (a := f)]
  · have hm : s.launch.memValid a = true := Launch.memValid_of_inText ht
    simp [he, hm, Launch.aligned_of_memValid hm]
  · simp [he, hm, Launch.aligned_of_memValid hm]

/-- A store is refused for the program's words only (R41). -/
theorem State.storeWord_eq_refused_iff {s : State} {a v : Word} {r : Refusal} :
    s.storeWord a v = .refused r ↔ s.launch.inText a = true ∧ r = .storeToText s.pc a := by
  cases ht : s.launch.inText a with
  | true => simp [State.storeWord_of_inText v ht, eq_comm (a := r)]
  | false =>
    rcases s.storeWord_cases a v with ⟨-, he⟩ | ⟨-, -, he⟩ | ⟨ht', -⟩ | ⟨-, -, he⟩
    · simp [he]
    · simp [he]
    · cases ht.symm.trans ht'
    · simp [he]

/-- The fetch raises the address error or the access fault (R95, R98), in this order (R101). -/
theorem State.fetch_eq_fault_iff {s : State} {f : Fault} :
    s.fetch = .fault f ↔ (¬ aligned s.pc ∧ f = .addressErrorFetch s.pc s.pc) ∨
      (aligned s.pc ∧ s.launch.memValid s.pc = false ∧ f = .accessFault s.pc s.pc) := by
  rcases s.fetch_cases with ⟨ha, he⟩ | ⟨ha, hm, he⟩ | ⟨hm, -, he⟩ | ⟨ht, he⟩
  · simp [he, ha, eq_comm (a := f)]
  · simp [he, aligned, ha, hm, eq_comm (a := f)]
  · simp [he, hm, Launch.aligned_of_memValid hm]
  · have hm : s.launch.memValid s.pc = true := Launch.memValid_of_inText ht
    simp [he, hm, Launch.aligned_of_memValid hm]

/-- The fetch is refused for populated words outside the program only (R41). -/
theorem State.fetch_eq_refused_iff {s : State} {r : Refusal} :
    s.fetch = .refused r ↔ s.launch.memValid s.pc = true ∧ s.launch.inText s.pc = false ∧
      r = .fetchOutsideText s.pc := by
  rcases s.fetch_cases with ⟨ha, he⟩ | ⟨-, hm, he⟩ | ⟨hm, ht, he⟩ | ⟨ht, he⟩
  · have hm : s.launch.memValid s.pc ≠ true := fun h => ha (Launch.aligned_of_memValid h)
    simp [he, hm]
  · simp [he, hm]
  · simp [he, hm, ht, eq_comm (a := r)]
  · simp [he, ht]

theorem State.fetch_eq_next_iff {s : State} {w : Word} :
    s.fetch = .next w ↔ s.launch.inText s.pc = true ∧ w = s.word s.pc := by
  refine ⟨State.eq_word_of_fetch_eq_next, ?_⟩
  rintro ⟨ht, rfl⟩
  exact State.fetch_of_inText ht

/-! ## When an instruction stops -/

/-- Settles O44: `div` completes in either of its cases, and the others have one case only. -/
theorem otherInstructionsNeverFault : Obligations.OtherInstructionsNeverFault := by
  intro i s hi
  cases i with
  | add | sub | addi | lw | sw => cases hi
  | div rs rt =>
    by_cases hu : divUndefined (s.reg rs).toInt (s.reg rt).toInt
    · exact ⟨_, exec_div_of_undefined hu⟩
    · exact ⟨_, exec_div_of_defined hu⟩
  | and | or | slt | slti | mult | mfhi | mflo | beq | bne | j | jal | jr => exact ⟨_, rfl⟩

theorem exec_ne_fault_of_canFault {i : Instr} (hi : i.canFault = false) (s : State) (f : Fault) :
    exec i s ≠ .fault f := by
  obtain ⟨t, ht⟩ := otherInstructionsNeverFault i s hi
  simp [ht]

theorem exec_ne_refused_of_canFault {i : Instr} (hi : i.canFault = false) (s : State) (r : Refusal) :
    exec i s ≠ .refused r := by
  obtain ⟨t, ht⟩ := otherInstructionsNeverFault i s hi
  simp [ht]

/-- R93's table, read by instruction: the instruction raises `f` in the state `s`
(`exec_eq_fault_iff`). -/
def Fault.raisedBy (f : Fault) (s : State) : Instr → Prop
  | .add _ rs rt => ¬ fitsSigned ((s.reg rs).toInt + (s.reg rt).toInt) ∧ f = .integerOverflow s.pc
  | .sub _ rs rt => ¬ fitsSigned ((s.reg rs).toInt - (s.reg rt).toInt) ∧ f = .integerOverflow s.pc
  | .addi _ rs imm => ¬ fitsSigned ((s.reg rs).toInt + imm.toInt) ∧ f = .integerOverflow s.pc
  | .lw _ rs imm =>
    (¬ aligned (s.baseDisp rs imm) ∧ f = .addressErrorLoad s.pc (s.baseDisp rs imm)) ∨
      (aligned (s.baseDisp rs imm) ∧ s.launch.memValid (s.baseDisp rs imm) = false ∧
        f = .accessFault s.pc (s.baseDisp rs imm))
  | .sw _ rs imm =>
    (¬ aligned (s.baseDisp rs imm) ∧ f = .addressErrorStore s.pc (s.baseDisp rs imm)) ∨
      (aligned (s.baseDisp rs imm) ∧ s.launch.memValid (s.baseDisp rs imm) = false ∧
        f = .accessFault s.pc (s.baseDisp rs imm))
  | .and _ _ _ | .or _ _ _ | .slt _ _ _ | .slti _ _ _ | .mult _ _ | .div _ _ => False
  | .mfhi _ | .mflo _ | .beq _ _ _ | .bne _ _ _ | .j _ | .jal _ | .jr _ => False

/-- An instruction faults exactly as the table says. -/
theorem exec_eq_fault_iff {i : Instr} {s : State} {f : Fault} :
    exec i s = .fault f ↔ f.raisedBy s i := by
  cases i with
  | add | sub => exact State.writeIfFits_eq_fault_iff
  | addi =>
    rw [exec_addi_eq_writeIfFits]
    exact State.writeIfFits_eq_fault_iff
  | lw => simp [exec, execLw, andThen_eq_fault_iff, State.loadWord_eq_fault_iff, Fault.raisedBy]
  | sw => simp [exec, execSw, andThen_eq_fault_iff, State.storeWord_eq_fault_iff, Fault.raisedBy]
  | and | or | slt | slti | mult | div | mfhi | mflo | beq | bne | j | jal | jr =>
    exact iff_of_false (exec_ne_fault_of_canFault rfl s f) id

/-- Only `sw` is refused, for a store into the program (R41, R100). -/
theorem exec_eq_refused_iff {i : Instr} {s : State} {r : Refusal} :
    exec i s = .refused r ↔ ∃ rt rs imm, i = .sw rt rs imm ∧
      s.launch.inText (s.baseDisp rs imm) = true ∧ r = .storeToText s.pc (s.baseDisp rs imm) := by
  cases i with
  | sw => simp [exec, execSw, andThen_eq_refused_iff, State.storeWord_eq_refused_iff]
  | add | sub | addi => simp [exec, execAdd, execSub, execAddi, State.writeIfFits_ne_refused]
  | lw => simp [exec, execLw, andThen_eq_refused_iff, State.loadWord_ne_refused]
  | and | or | slt | slti | mult | div | mfhi | mflo | beq | bne | j | jal | jr =>
    exact iff_of_false (exec_ne_refused_of_canFault rfl s r) (by simp)

/-- The instructions that the table has an entry for, each with its own. -/
theorem exists_raisedBy_iff {s : State} {f : Fault} {d : Except Reserved Instr} :
    (∃ i, d = .ok i ∧ f.raisedBy s i) ↔
      (∃ rd rs rt, d = .ok (.add rd rs rt) ∧ f.raisedBy s (.add rd rs rt)) ∨
      (∃ rd rs rt, d = .ok (.sub rd rs rt) ∧ f.raisedBy s (.sub rd rs rt)) ∨
      (∃ rt rs imm, d = .ok (.addi rt rs imm) ∧ f.raisedBy s (.addi rt rs imm)) ∨
      (∃ rt rs imm, d = .ok (.lw rt rs imm) ∧ f.raisedBy s (.lw rt rs imm)) ∨
      (∃ rt rs imm, d = .ok (.sw rt rs imm) ∧ f.raisedBy s (.sw rt rs imm)) := by
  constructor
  · rintro ⟨i, hd, hf⟩
    cases i with
    | add => exact .inl ⟨_, _, _, hd, hf⟩
    | sub => exact .inr (.inl ⟨_, _, _, hd, hf⟩)
    | addi => exact .inr (.inr (.inl ⟨_, _, _, hd, hf⟩))
    | lw => exact .inr (.inr (.inr (.inl ⟨_, _, _, hd, hf⟩)))
    | sw => exact .inr (.inr (.inr (.inr ⟨_, _, _, hd, hf⟩)))
    | and | or | slt | slti | mult | div | mfhi | mflo | beq | bne | j | jal | jr => cases hf
  · rintro (⟨_, _, _, h⟩ | ⟨_, _, _, h⟩ | ⟨_, _, _, h⟩ | ⟨_, _, _, h⟩ | ⟨_, _, _, h⟩) <;> exact ⟨_, h⟩

/-- Every entry of R93's table records the `pc` of the step. -/
theorem Fault.pc_eq_of_raisedBy {i : Instr} {s : State} {f : Fault} (h : f.raisedBy s i) :
    f.pc = s.pc := by
  cases i with
  | add | sub | addi =>
    obtain ⟨-, rfl⟩ := h
    rfl
  | lw | sw => obtain ⟨-, rfl⟩ | ⟨-, -, rfl⟩ := h <;> rfl
  | and | or | slt | slti | mult | div | mfhi | mflo | beq | bne | j | jal | jr => cases h

/-! ## When a step stops -/

/-- A step faults in the fetch, at a reserved word or in its instruction (R18). -/
theorem step_eq_fault_iff {s : State} {f : Fault} (hr : s.running) (hp : s.pc ≠ s.launch.haltPc) :
    step s = .fault f ↔ s.fetch = .fault f ∨ (s.launch.inText s.pc = true ∧
      (((∃ e, decode (s.word s.pc) = .error e) ∧
          f = .reservedInstruction s.pc (s.word s.pc)) ∨
        ∃ i, decode (s.word s.pc) = .ok i ∧ exec i s = .fault f)) := by
  rw [step_of_running hr hp, andThen_eq_fault_iff]
  simp only [State.fetch_eq_next_iff, and_assoc, exists_and_left, exists_eq_left]
  cases decode (s.word s.pc) with
  | error e => simp [eq_comm (a := f)]
  | ok i => simp

/-- A step's fault records the `pc` of the step (R93). -/
theorem pc_of_step_eq_fault {s : State} {f : Fault} (hr : s.running) (h : step s = .fault f) :
    f.pc = s.pc := by
  have hp : s.pc ≠ s.launch.haltPc := fun hp => by
    rw [step_of_final ⟨hp, hr⟩] at h
    cases h
  rw [step_eq_fault_iff hr hp, State.fetch_eq_fault_iff] at h
  obtain (⟨-, rfl⟩ | ⟨-, -, rfl⟩) | ⟨-, ⟨-, rfl⟩ | ⟨i, -, he⟩⟩ := h
  · rfl
  · rfl
  · rfl
  · exact Fault.pc_eq_of_raisedBy (exec_eq_fault_iff.mp he)

/-- A step is refused in the fetch or in its instruction (R18). -/
theorem step_eq_refused_iff {s : State} {r : Refusal} (hr : s.running)
    (hp : s.pc ≠ s.launch.haltPc) :
    step s = .refused r ↔ s.fetch = .refused r ∨ (s.launch.inText s.pc = true ∧
      ∃ i, decode (s.word s.pc) = .ok i ∧ exec i s = .refused r) := by
  rw [step_of_running hr hp, andThen_eq_refused_iff]
  simp only [State.fetch_eq_next_iff, and_assoc, exists_and_left, exists_eq_left]
  cases decode (s.word s.pc) with
  | error e => simp
  | ok i => simp

/-- Settles O32: a reserved word is one that the decoder gives no instruction for. -/
theorem reservedWordFaults : Obligations.ReservedWordFaults := by
  intro s hr hp ht hw
  cases hd : decode (s.word s.pc) with
  | ok i => exact absurd (encode_of_decode hd) (hw i)
  | error e => exact step_of_decode_error hr hp ht hd

/-- Settles O43: a step faults in the fetch, at a reserved word, or as R93's table says of its
instruction. -/
theorem stepFaultsExactlyWhenListed : Obligations.StepFaultsExactlyWhenListed := by
  refine ⟨fun _ _ => ⟨rfl, rfl, rfl, rfl, rfl, rfl⟩, fun s f hr hp => ?_⟩
  rw [step_eq_fault_iff hr hp, State.fetch_eq_fault_iff, or_assoc]
  simp only [exec_eq_fault_iff, exists_raisedBy_iff]
  exact Iff.rfl

/-! ## A stopped run -/

theorem State.settle_of_fault {s : State} {f : Fault} (h : step s = .fault f) :
    s.settle = { s with faultRecord := some f } := by
  rw [State.settle, h]

theorem State.settle_of_refused {s : State} {r : Refusal} (h : step s = .refused r) :
    s.settle = { s with refusedMark := some r } := by
  rw [State.settle, h]

/-- A state that settling leaves as it is, and that has no next state, is where a run stays. -/
theorem State.stays_of_settle_eq_self {u : State} (hs : u.settle = u) (hn : ∀ t, step u ≠ .next t)
    (k : Nat) : State.settleMany k u = u ∧ ∀ t, ¬ runsTo (k + 1) u t := by
  constructor
  · induction k with
    | zero => rfl
    | succ k ih => rw [State.settleMany, hs, ih]
  · intro t hrun
    obtain ⟨v, hv, -⟩ := (runsTo_succ k u t).mp hrun
    exact hn v hv

/-- Settles O45: the two refusals are those of the fetch and of `sw`, and a marked state answers with
its mark, which settling writes again. -/
theorem refusedExactlyWhenListedAndForEver : Obligations.RefusedExactlyWhenListedAndForEver := by
  intro s r hr
  refine ⟨fun hp => ?listed, fun h => ?forEver⟩
  case listed =>
    rw [step_eq_refused_iff hr hp, State.fetch_eq_refused_iff]
    refine or_congr_right (and_congr_right fun _ => ⟨?_, ?_⟩)
    · rintro ⟨i, hd, he⟩
      obtain ⟨rt, rs, imm, rfl, hstore⟩ := exec_eq_refused_iff.mp he
      exact ⟨rt, rs, imm, hd, hstore⟩
    · rintro ⟨rt, rs, imm, hd, hstore⟩
      exact ⟨_, hd, exec_eq_refused_iff.mpr ⟨rt, rs, imm, rfl, hstore⟩⟩
  case forEver =>
    rw [State.settle_of_refused h]
    have hstep : step { s with refusedMark := some r } = .refused r := step_of_refusedMark hr.1 rfl
    exact ⟨rfl, by simp, State.stays_of_settle_eq_self (State.settle_of_refused hstep) (by simp [hstep])⟩

/-- Settles O46: a state with a record answers with it, and settling writes it again. -/
theorem faultEndsTheRun : Obligations.FaultEndsTheRun := by
  intro s f hr h
  rw [State.settle_of_fault h]
  have hstep : step { s with faultRecord := some f } = .fault f := step_of_faultRecord rfl
  exact ⟨rfl, pc_of_step_eq_fault hr h, by simp,
    State.stays_of_settle_eq_self (State.settle_of_fault hstep) (by simp [hstep])⟩

/-! ## A misaligned `pc` (R95) -/

theorem aligned_add_four {a : Word} (h : aligned a) : aligned (a + 4#32) := by
  unfold aligned at *
  bv_omega

theorem aligned_branchTarget {s : State} (h : aligned s.pc) (imm : Imm16) :
    aligned (s.branchTarget imm) := by
  have htarget := toNat_branchTarget s imm
  unfold aligned at *
  omega

/-- A jump target ends in two zero bits (R52). -/
theorem aligned_jumpTarget (s : State) (target : Target26) : aligned (s.jumpTarget target) := by
  obtain ⟨-, -, hlow⟩ := jumpTarget_eq_iff.mp (Eq.refl (s.jumpTarget target))
  exact aligned_iff_extractLsb'.mpr hlow

/-- No effect but that of `jr` makes an aligned `pc` misaligned. -/
theorem Effect.aligned_pc_or_jr {i : Instr} {s t : State} (h : Effect i s t) (hs : aligned s.pc) :
    aligned t.pc ∨ ∃ rs, i = .jr rs ∧ t.pc = s.reg rs := by
  cases h with
  | writeReg | writeHiLo | drawHiLo | store => exact .inl (aligned_add_four hs)
  | link target | jump target => exact .inl (aligned_jumpTarget s target)
  | branch _ _ imm _ _ ha =>
    obtain rfl | rfl := ha
    · exact .inl (aligned_branchTarget hs imm)
    · exact .inl (aligned_add_four hs)
  | jumpReg rs hi => exact .inr ⟨rs, hi, rfl⟩

/-- Settles O41: the fetch's first check, and the one effect that can misalign `pc`. -/
theorem onlyJrMakesPcMisaligned : Obligations.OnlyJrMakesPcMisaligned := by
  refine ⟨fun s hr hp ha => ?fetch, fun s t hs h ht => ?jr⟩
  case fetch => rw [step_of_running hr hp, State.fetch_of_misaligned ha, andThen_fault]
  case jr =>
    obtain ⟨-, ⟨-, rfl⟩ | ⟨-, -, i, hd, he⟩⟩ := step_next_cases h
    · exact absurd hs ht
    · obtain ⟨rs, rfl, hpc⟩ := ((exec_effect he).aligned_pc_or_jr hs).resolve_left ht
      exact ⟨rs, hd, hpc⟩

end Sys2Proof.Machine

/-! SUPPORT. Loading one word, reset and the end of a run (R109, R110, R113): what the load does to
the launch and to memory, registers that all hold 0, and the words of the eighteen samples; with O30,
O36, O38 and O47. -/

namespace Sys2Proof

/-- Settles O30: each sample is the word of its instruction. -/
theorem sampleWordsDecode : Obligations.SampleWordsDecode := by
  unfold Obligations.SampleWordsDecode
  simp only [decode_eq_ok_iff]
  decide

/-- A table word of full width is the number itself. -/
theorem tableWord_full (w : Nat) : tableWord 32 w = BitVec.ofNat 32 w :=
  BitVec.eq_of_toNat_eq (by simp [tableWord])

namespace Machine

/-! ## The word loaded at `pc` (log 11, log 23) -/

theorem aligned_sub_mod_four (a : Word) : aligned (a - BitVec.ofNat 32 (a.toNat % 4)) := by
  have hle : BitVec.ofNat 32 (a.toNat % 4) ≤ a := by
    rw [BitVec.le_def, BitVec.toNat_ofNat]
    omega
  rw [aligned, BitVec.toNat_sub_of_le hle, BitVec.toNat_ofNat]
  omega

theorem Launch.inText_withTextWord (l : Launch) {a : Word} (h : aligned a) :
    (Launch.withTextWord l a).inText a = true := by
  simp [Launch.withTextWord, Launch.inText, Region.contains, h]

theorem Launch.haltPc_withTextWord_ne (l : Launch) (a : Word) :
    (Launch.withTextWord l a).haltPc ≠ a := by
  dsimp only [Launch.withTextWord]
  split
  · simp
  · assumption

/-- A state with a word loaded at its `pc` executes the instruction of that word. -/
theorem step_loadAtPc (s : State) {w : Word} {i : Instr} (hd : decode w = .ok i) :
    step (s.loadAtPc w) = exec i (s.loadAtPc w) := by
  have hp : (s.loadAtPc w).pc ≠ (s.loadAtPc w).launch.haltPc :=
    (Launch.haltPc_withTextWord_ne s.launch _).symm
  have ht : (s.loadAtPc w).launch.inText (s.loadAtPc w).pc = true :=
    Launch.inText_withTextWord s.launch (aligned_sub_mod_four s.pc)
  have hw : (s.loadAtPc w).word (s.loadAtPc w).pc = w := Memory.readWord_writeWord_self _ _ _ w
  exact step_of_decode_ok ⟨rfl, rfl⟩ hp ht (hw.symm ▸ hd)

/-- Settles O36: the load makes the word of all 32 bits a word of the program, not at `HALT_PC`. -/
theorem loadedWordRunsNext : Obligations.LoadedWordRunsNext := by
  intro s w i _ hd
  rw [← tableWord_full] at hd
  exact step_loadAtPc s hd

/-! ## Reset -/

theorem State.reg_of_x_replicate_zero {s : State} (h : s.x = Vector.replicate 31 0#32) (q : Reg) :
    s.reg q = 0#32 := by
  simp [State.reg, h]

/-- Settles O38: nothing is listed in memory, and `ENTRY_PC` is populated but holds no program. -/
theorem resetIsAWellFormedLaunch : Obligations.ResetIsAWellFormedLaunch := by
  have hr : State.reset.running := ⟨rfl, rfl⟩
  have hwf : State.reset.wf := by decide
  have hp : State.reset.pc ≠ State.reset.launch.haltPc := by decide
  have hm : State.reset.launch.memValid State.reset.pc = true := by decide
  have ht : State.reset.launch.inText State.reset.pc = false := by decide
  have hstep : step State.reset = .refused (.fetchOutsideText State.reset.pc) := by
    rw [step_of_running hr hp, State.fetch_of_data hm ht, andThen_refused]
  exact ⟨rfl, hwf, hr, State.reg_of_x_replicate_zero rfl, hstep⟩

/-! ## The end of a run (R113) -/

/-- Settles O47: a final state answers with itself, and a running state that is not final is not at
`HALT_PC`. -/
theorem finalStateStays : Obligations.FinalStateStays := by
  intro s
  refine ⟨runsTo_of_final, fun hr hf => ?_⟩
  have hp : s.pc ≠ s.launch.haltPc := fun hpc => hf ⟨hpc, hr⟩
  exact step_of_running hr hp

end Machine

end Sys2Proof
